-- ==== Sys2Proof/Word.lean ====
section
/-! DEFINITION. The word types of the IDB core (00_scope.md R7, 30_encoding.md R60, R75). -/

namespace Sys2Proof

/-- A 32-bit unsigned register or operand word (`u32`, R7). -/
abbrev Word := BitVec 32

/-- The 32 bits of an IEEE 754 binary32 value (`f32`, R7). A float is its bit pattern, since
banks and registers keep every bit of it, NaN payloads included (20_memory.md R43). -/
abbrev F32 := BitVec 32

/-- A command word, `cmd[159:0]` (R60). -/
abbrev Cmd := BitVec 160

/-- An output packet, `{bits(outA), bits(outB)}` (R75). -/
abbrev Packet := BitVec 64

end Sys2Proof
end

