-- ==== Sys2Proof/Syntax.lean ====
section
/-! DEFINITION. The twelve commands of the opcode map (30_encoding.md R64), one constructor each.
An operand is the whole field the command word holds (R62): `n` 8 bits, `F` one bit, an operand
word 32 bits. -/

namespace Sys2Proof

/-- A command with its live fields (R63, R64). -/
inductive Instr where
  /-- DBPREP: `n` = numChannels, `a0` = maxLengthSamples (u32). -/
  | dbprep (n : BitVec 8) (maxLen : Word)
  /-- DBCLR. -/
  | dbclr
  /-- DBSETD: `a0`, `a1` = offsetA, offsetB (i32). -/
  | dbsetd (offA offB : Word)
  /-- DBPROC: `n` = numChannels, `a0` to `a3` = inA, inB, modA, modB (f32). -/
  | dbproc (n : BitVec 8) (inA inB modA modB : F32)
  /-- PREPARE: `n` = numChannels, `a0` = sampleRate, `a1` = maxTimeMs (f32). -/
  | prepare (n : BitVec 8) (sampleRate maxTimeMs : F32)
  /-- CLEAR. -/
  | clear
  /-- TICK: `n` = numChannels, `a0`, `a1` = xA, xB (f32). -/
  | tick (n : BitVec 8) (xA xB : F32)
  /-- SETOFS: `F` = forceImmediate, `a0` = ms (f32). -/
  | setofs (force : Bool) (ms : F32)
  /-- SETDEP: `F` = forceImmediate, `a0` = ms (f32). -/
  | setdep (force : Bool) (ms : F32)
  /-- SETGAIN: `n` = node (0 = A, 1 = B), `F` = forceImmediate, `a0` = gain (f32). -/
  | setgain (n : BitVec 8) (force : Bool) (gain : F32)
  /-- SETRATE: `a0` = hz (f32). -/
  | setrate (hz : F32)
  /-- SETTYPE: `n` = waveform code (0 Sine, 1 Triangle, 2 Sawtooth). -/
  | settype (n : BitVec 8)
deriving DecidableEq, Repr

end Sys2Proof
end

