-- ==== Sys2Proof/WellFormed.lean ====
section
/-! DEFINITION. The constraints on a live field (30_encoding.md R65, R68, R69). Every other operand
is legal at every bit pattern (R67, R71). -/

namespace Sys2Proof

/-- The term is a command some word decodes to: a SETGAIN node is 0 or 1 (R68), a SETTYPE code
is 0, 1 or 2 (R69). -/
def Instr.wellFormed : Instr → Bool
  | .setgain n _ _ => decide (n.toNat ≤ 1)
  | .settype n => decide (n.toNat ≤ 2)
  | .dbprep _ _ => true
  | .dbclr => true
  | .dbsetd _ _ => true
  | .dbproc _ _ _ _ _ => true
  | .prepare _ _ _ => true
  | .clear => true
  | .tick _ _ _ => true
  | .setofs _ _ => true
  | .setdep _ _ => true
  | .setrate _ => true

end Sys2Proof
end

