-- ==== Sys2Proof/Decode.lean ====
section
/-! DEFINITION. The decoder of 30_encoding.md R66, total on all 160-bit words, over the match and
mask constants of R65; after it the encoder of R60 to R64. -/

namespace Sys2Proof

/-- The fields of a command word (R60). -/
structure Fields where
  op : BitVec 8
  n : BitVec 8
  rsv : BitVec 15
  f : BitVec 1
  a0 : Word
  a1 : Word
  a2 : Word
  a3 : Word
deriving DecidableEq, Repr

/-- The field positions of R60. -/
def fields (w : Cmd) : Fields :=
  { op := w.extractLsb' 152 8, n := w.extractLsb' 144 8, rsv := w.extractLsb' 129 15,
    f := w.extractLsb' 128 1, a0 := w.extractLsb' 96 32, a1 := w.extractLsb' 64 32,
    a2 := w.extractLsb' 32 32, a3 := w.extractLsb' 0 32 }

/-- The word with the given fields: `{op, n, rsv, F, a0, a1, a2, a3}` (R60). -/
def packFields (x : Fields) : Cmd :=
  x.op ++ x.n ++ x.rsv ++ x.f ++ x.a0 ++ x.a1 ++ x.a2 ++ x.a3

/-- `F` read as a `bool` (R62). -/
def flagOf (f : BitVec 1) : Bool := f == 1#1

/-- Why a word is illegal (R66). The hardware treats the three alike (R72). -/
inductive Illegal where
  | reservedOpcode
  | nonZeroReservedField
  | reservedFieldValue
deriving DecidableEq, Repr

/-- What the decoder says of a word (R66). -/
inductive Decoded where
  | cmd (i : Instr)
  | illegal (r : Illegal)
deriving DecidableEq, Repr

/-- One row of the match and mask table (R65): the two constants, the further constraint on `n`,
and the command its live fields give. -/
structure Row where
  pattern : Cmd
  mask : Cmd
  legal : BitVec 8 → Bool
  build : Fields → Instr

/-- The table of R65, in its order. -/
def rows : List Row := [
  { pattern := 0x0100000000000000000000000000000000000000#160,
    mask := 0xFF00FFFF00000000FFFFFFFFFFFFFFFFFFFFFFFF#160,
    legal := fun _ => true, build := fun x => .dbprep x.n x.a0 },
  { pattern := 0x0200000000000000000000000000000000000000#160,
    mask := 0xFFFFFFFFFFFFFFFFFFFFFFFFFFFFFFFFFFFFFFFF#160,
    legal := fun _ => true, build := fun _ => .dbclr },
  { pattern := 0x0300000000000000000000000000000000000000#160,
    mask := 0xFFFFFFFF0000000000000000FFFFFFFFFFFFFFFF#160,
    legal := fun _ => true, build := fun x => .dbsetd x.a0 x.a1 },
  { pattern := 0x0400000000000000000000000000000000000000#160,
    mask := 0xFF00FFFF00000000000000000000000000000000#160,
    legal := fun _ => true, build := fun x => .dbproc x.n x.a0 x.a1 x.a2 x.a3 },
  { pattern := 0x1000000000000000000000000000000000000000#160,
    mask := 0xFF00FFFF0000000000000000FFFFFFFFFFFFFFFF#160,
    legal := fun _ => true, build := fun x => .prepare x.n x.a0 x.a1 },
  { pattern := 0x1100000000000000000000000000000000000000#160,
    mask := 0xFFFFFFFFFFFFFFFFFFFFFFFFFFFFFFFFFFFFFFFF#160,
    legal := fun _ => true, build := fun _ => .clear },
  { pattern := 0x1200000000000000000000000000000000000000#160,
    mask := 0xFF00FFFF0000000000000000FFFFFFFFFFFFFFFF#160,
    legal := fun _ => true, build := fun x => .tick x.n x.a0 x.a1 },
  { pattern := 0x2000000000000000000000000000000000000000#160,
    mask := 0xFFFFFFFE00000000FFFFFFFFFFFFFFFFFFFFFFFF#160,
    legal := fun _ => true, build := fun x => .setofs (flagOf x.f) x.a0 },
  { pattern := 0x2100000000000000000000000000000000000000#160,
    mask := 0xFFFFFFFE00000000FFFFFFFFFFFFFFFFFFFFFFFF#160,
    legal := fun _ => true, build := fun x => .setdep (flagOf x.f) x.a0 },
  { pattern := 0x2200000000000000000000000000000000000000#160,
    mask := 0xFF00FFFE00000000FFFFFFFFFFFFFFFFFFFFFFFF#160,
    legal := fun n => decide (n.toNat ≤ 1),
    build := fun x => .setgain x.n (flagOf x.f) x.a0 },
  { pattern := 0x2300000000000000000000000000000000000000#160,
    mask := 0xFFFFFFFF00000000FFFFFFFFFFFFFFFFFFFFFFFF#160,
    legal := fun _ => true, build := fun x => .setrate x.a0 },
  { pattern := 0x2400000000000000000000000000000000000000#160,
    mask := 0xFF00FFFFFFFFFFFFFFFFFFFFFFFFFFFFFFFFFFFF#160,
    legal := fun n => decide (n.toNat ≤ 2), build := fun x => .settype x.n } ]

/-- The row whose match has the word's opcode, if any (R66). -/
def rowOf (w : Cmd) : Option Row :=
  rows.find? (fun r => (fields r.pattern).op == (fields w).op)

/-- The decoder of R66. -/
def decode (w : Cmd) : Decoded :=
  match rowOf w with
  | none => .illegal .reservedOpcode
  | some r =>
    if w &&& r.mask ≠ r.pattern then .illegal .nonZeroReservedField
    else if r.legal (fields w).n then .cmd (r.build (fields w))
    else .illegal .reservedFieldValue

/-- The opcode of R64. -/
def opcodeOf : Instr → BitVec 8
  | .dbprep _ _ => 0x01
  | .dbclr => 0x02
  | .dbsetd _ _ => 0x03
  | .dbproc _ _ _ _ _ => 0x04
  | .prepare _ _ _ => 0x10
  | .clear => 0x11
  | .tick _ _ _ => 0x12
  | .setofs _ _ => 0x20
  | .setdep _ _ => 0x21
  | .setgain _ _ _ => 0x22
  | .setrate _ => 0x23
  | .settype _ => 0x24

/-- A word's fields from an opcode and the live fields; all else is zero (R61, R63). -/
def fieldsWith (op : BitVec 8) (n : BitVec 8 := 0) (f : Bool := false)
    (a0 a1 a2 a3 : Word := 0) : Fields :=
  { op := op, n := n, rsv := 0, f := BitVec.ofBool f, a0 := a0, a1 := a1, a2 := a2, a3 := a3 }

/-- The fields of a command's word (R63, R64). -/
def fieldsOf (i : Instr) : Fields :=
  match i with
  | .dbprep n m => fieldsWith (opcodeOf i) (n := n) (a0 := m)
  | .dbclr => fieldsWith (opcodeOf i)
  | .dbsetd a b => fieldsWith (opcodeOf i) (a0 := a) (a1 := b)
  | .dbproc n a b c d => fieldsWith (opcodeOf i) (n := n) (a0 := a) (a1 := b) (a2 := c) (a3 := d)
  | .prepare n fs ms => fieldsWith (opcodeOf i) (n := n) (a0 := fs) (a1 := ms)
  | .clear => fieldsWith (opcodeOf i)
  | .tick n a b => fieldsWith (opcodeOf i) (n := n) (a0 := a) (a1 := b)
  | .setofs f ms => fieldsWith (opcodeOf i) (f := f) (a0 := ms)
  | .setdep f ms => fieldsWith (opcodeOf i) (f := f) (a0 := ms)
  | .setgain n f g => fieldsWith (opcodeOf i) (n := n) (f := f) (a0 := g)
  | .setrate hz => fieldsWith (opcodeOf i) (a0 := hz)
  | .settype n => fieldsWith (opcodeOf i) (n := n)

/-- The encoder (R60 to R64). An ill-formed term gets the word its fields spell, which the decoder
rejects. -/
def encode (i : Instr) : Cmd := packFields (fieldsOf i)

/-- The command the decoder reads from the low `nbits` bits of `w`, bit 0 being `cmd[0]` as in
spec/opcode_table.json. A command is one word of 160 bits (R60), so nothing follows it. -/
def decodeTableWord (nbits w : Nat) : Option Instr :=
  match decode (BitVec.ofNat 160 (w % 2 ^ nbits)) with
  | .cmd i => some i
  | .illegal _ => none

end Sys2Proof
end

