-- ==== Sys2Proof/Config.lean ====
section
/-! DEFINITION. What the spec leaves to an implementation: the model arguments of 00_scope.md R6
as plain data, and the free values (93_implementation_defined.md U6, U8, U9) as constants without
a body. -/

namespace Sys2Proof

/-- Which sine the Sine waveform uses (the model argument `SinFn`, R6, R102). -/
inductive SinKind where
  /-- The spec's default instance, the correctly rounded sine (R102 (e), decision D3). -/
  | correctlyRounded
  /-- Any function that meets the contract of R102. -/
  | anyConforming
deriving DecidableEq, Repr

/-- Which ramp implementation the four ramp units have (the model argument `Ramp`, R6, R157). -/
inductive RampKind where
  /-- The spec's default instance `RefRamp` (R158 to R161, decision D30). -/
  | refRamp
  /-- Any ramp that meets the contract of R151 to R155. -/
  | anyConforming
deriving DecidableEq, Repr

/-- The model arguments of R6. `NODES = 2` is fixed and is no argument. Log entry 1. -/
structure Params where
  /-- `MAXLEN`, the capacity of each bank in words. -/
  maxLen : Nat
  /-- `BASE_DELAY`, in samples. -/
  baseDelay : Nat
  /-- `RAMP_MS`, used by `RefRamp` only. -/
  rampMs : F32
  /-- The instance of `SinFn`. -/
  sin : SinKind
  /-- The instance of `Ramp` that the units have after reset. -/
  ramp : RampKind
deriving DecidableEq, Repr

/-- The defaults the spec names: 65536 (D7), 1 (D17), 20.0 (D30), the correctly rounded sine (D3),
`RefRamp` (D30). -/
def Params.default : Params :=
  { maxLen := 65536, baseDelay := 1, rampMs := 0x41A00000#32,
    sin := .correctlyRounded, ramp := .refRamp }

/-- The free values: a fresh unknown word for each number. A NaN result takes its sign and payload
from one (U6), a conforming ramp its glide value and duration (U9). Log entries 4 and 12. -/
opaque Config.free : Nat → BitVec 32

/-- An unknown pure function of the argument's bits, from which every conforming `SinFn` is made
(R102 (a), U8). Log entry 9. -/
opaque Config.sinRaw : F32 → F32

end Sys2Proof
end

