-- ==== Sys2Proof/Machine/State.lean ====
section
/-! DEFINITION. The architectural state of the IDB core (10_state.md R10), its reset value (R32),
and the ways a step can stop. -/

namespace Sys2Proof.Machine

/-- A node index `X`: node A is 0, node B is 1 (R7). -/
inductive Node where
  | a
  | b
deriving DecidableEq, Repr

/-- A register pair `name[X]` (R7, R12). -/
structure Pair (α : Type) where
  a : α
  b : α
deriving DecidableEq, Repr

/-- The four smoothed parameters and their ramp units (R150). -/
inductive RampId where
  | ofs
  | dep
  | ga
  | gb
deriving DecidableEq, Repr

/-- One value for each smoothed parameter. -/
structure Quad (α : Type) where
  ofs : α
  dep : α
  ga : α
  gb : α
deriving DecidableEq, Repr

/-- The waveform selector `typ`: codes 0, 1, 2; the code 3 is never stored (R23). -/
inductive Waveform where
  | sine
  | triangle
  | sawtooth
deriving DecidableEq, Repr

/-- One sample bank: its words that are not +0.0, by rising word index. Word indexed, since no rule
addresses a byte (20_memory.md R44); log entries 6 and 7. -/
abbrev Bank := List (Nat × F32)

/-- The one address space, two banks (20_memory.md R40). -/
abbrev Memory := Pair Bank

/-- The state of a `RefRamp` unit (43_ramp_port.md R158). -/
structure RefRamp where
  /-- last applied value -/
  cur : F32
  /-- pending target -/
  tgt : F32
  /-- target of the glide in progress -/
  act : F32
  /-- increment per sample -/
  step : F32
  /-- steps remaining -/
  left : Word
  /-- a target was set and not yet picked up -/
  dirty : Bool
  /-- `N`, ramp length in samples -/
  len : Word
deriving DecidableEq, Repr

/-- The state of a ramp of which only the contract is known (R151 to R155). Log entry 12. -/
structure ContractRamp where
  /-- last applied value -/
  cur : F32
  /-- value applied before the last unforced `setTarget` -/
  start : F32
  /-- destination -/
  tgt : F32
  /-- calls of `next` that may still return something else than `tgt` -/
  left : Nat
  /-- configured duration, in calls -/
  dur : Nat
deriving DecidableEq, Repr

/-- One ramp unit: the ramp implementation's own state type (R27, R150). -/
inductive RampUnit where
  | ref (r : RefRamp)
  | contract (r : ContractRamp)
deriving DecidableEq, Repr

/-- The Delay Buffer Engine's registers (R14 to R19). -/
structure Dbe where
  /-- `dbReady` -/
  ready : Bool
  /-- `L` -/
  len : Word
  /-- `alloc` -/
  alloc : BitVec 8
  /-- write cursors `w[X]` -/
  w : Pair Word
  /-- delay offsets `d[X]` -/
  d : Pair Word
  /-- sample banks `buf[c][i]` -/
  buf : Memory
deriving DecidableEq, Repr

/-- The LFO engine's registers (R20 to R23). -/
structure Lfo where
  /-- phases `ph[X]` -/
  ph : Pair F32
  /-- phase increment `inc` -/
  inc : F32
  /-- modulation rate `rate` in hertz -/
  rate : F32
  /-- waveform `typ` -/
  typ : Waveform
deriving DecidableEq, Repr

/-- The feedback network's registers and its ramp units (R14, R24 to R27). -/
structure Net where
  /-- `fnReady` -/
  ready : Bool
  /-- feedback state `fb[X]` -/
  fb : Pair F32
  /-- sample rate `fs` in hertz -/
  fs : F32
  /-- targets `tgt[r]` -/
  tgt : Quad F32
  /-- ramp units `Ramp[r]` -/
  ramp : Quad RampUnit
deriving DecidableEq, Repr

/-- The machine: the registers of R10 by sub-block (00_scope.md R2), the command port's queue
(R29), and three fields of the model's own (`params`, `out`, `free`: log entries 1, 3, 4). -/
structure State where
  /-- the model arguments of 00_scope.md R6; no command writes them -/
  params : Params
  /-- command words that have arrived and not yet executed, oldest first (R29) -/
  port : List Cmd
  /-- packets emitted so far, oldest first (30_encoding.md R75) -/
  out : List Packet
  /-- number of the next free value -/
  free : Nat
  db : Dbe
  lfo : Lfo
  net : Net
deriving DecidableEq, Repr

/-- Why a step faults. -/
inductive Fault where
  /-- `ContractViolation(NotPrepared)`: a command that needs a ready bit arrived while the bit is 0
  (60_exceptions.md R172 to R174). Raised by every command but DBPREP and PREPARE. Safe: the
  hardware's behaviour there is undefined. -/
  | notPrepared
  /-- DBPROC or TICK would access a word with index `>= L` or `>= MAXLEN` (20_memory.md R41, R42).
  Safe: no state that meets the invariant of R18 does so, and the spec gives such an access no
  meaning. Log entry 8. -/
  | noSuchWord
deriving DecidableEq, Repr

/-- Why a step is refused. -/
inductive Refusal where
  /-- An instruction with no meaning yet. Raised by no arm: every command is modelled. Safe. -/
  | notModelled (mnemonic : String)
deriving DecidableEq, Repr

/-- The answer of a command. -/
abbrev Result := Host.Outcome State Fault Refusal

/-- A ramp unit no `prepare` has reached: unspecified (R158, R32), zero here. Log entry 5. -/
def RampUnit.blank : RampKind → RampUnit
  | .refRamp => .ref { cur := 0, tgt := 0, act := 0, step := 0, left := 0, dirty := false, len := 0 }
  | .anyConforming => .contract { cur := 0, start := 0, tgt := 0, left := 0, dur := 0 }

/-- The state after reset with the given model arguments (R32, 70_reset_and_hazards.md R190): ready
bits 0, `rate` and the targets +0.0, `typ` Sine, no command waiting, no packet emitted. The
registers R32 leaves unspecified are zero (log entries 5 and 6). -/
def State.resetWith (p : Params) : State :=
  { params := p
    port := []
    out := []
    free := 0
    db := { ready := false, len := 0, alloc := 0, w := ⟨0, 0⟩, d := ⟨0, 0⟩, buf := ⟨[], []⟩ }
    lfo := { ph := ⟨0, 0⟩, inc := 0, rate := 0, typ := .sine }
    net :=
      { ready := false, fb := ⟨0, 0⟩, fs := 0, tgt := ⟨0, 0, 0, 0⟩
        ramp := ⟨.blank p.ramp, .blank p.ramp, .blank p.ramp, .blank p.ramp⟩ } }

/-- The state after reset with the spec's default arguments (R6, R32). -/
def State.reset : State := State.resetWith Params.default

end Sys2Proof.Machine
end

