-- ==== Sys2Proof/Machine/Operands.lean ====
section
/-! DEFINITION. The operand forms of 30_encoding.md R62 and the integer clamps of 00_scope.md R7. No
operand is shifted or scaled: an `f32` operand is the operand word itself and a `u32` operand its
unsigned value. -/

namespace Sys2Proof.Machine

/-- A `u32` operand. -/
def readU32 (a : Word) : Nat := a.toNat

/-- An `i32` operand, two's complement. -/
def readI32 (a : Word) : Int := a.toInt

/-- A `u8` operand used as a channel count: legal at every value (R67). -/
def readU8 (n : BitVec 8) : Nat := n.toNat

/-- `n` as a node index (R68): 0 is A, 1 is B, the rest is reserved. -/
def nodeOf (n : BitVec 8) : Option Node :=
  if n.toNat = 0 then some .a else if n.toNat = 1 then some .b else none

/-- `n` as a waveform code (R69): 0, 1, 2, the rest is reserved. -/
def waveOf (n : BitVec 8) : Option Waveform :=
  if n.toNat = 0 then some .sine
  else if n.toNat = 1 then some .triangle
  else if n.toNat = 2 then some .sawtooth
  else none

/-- `clampI(v, lo, hi)` of R7. -/
def clampI (v lo hi : Int) : Int := min (max v lo) hi

/-- `clampI` on unsigned values. -/
def clampN (v lo hi : Nat) : Nat := min (max v lo) hi

/-- `a mod L` of R7 as a natural number: never negative, below `L` when `L > 0`. -/
def modLen (a : Int) (len : Nat) : Nat := (a % (len : Int)).toNat

end Sys2Proof.Machine
end

