-- ==== Sys2Proof/Machine/Ops.lean ====
section
/-! DEFINITION. The named operations over registers, memory, the two ports and the free values.

TAKING AN EXCEPTION. The hardware raises none and has no trap entry and no return (60_exceptions.md
R170, R178, R179), so there is no such operation here. The one abnormal outcome, a contract violation
(R172), is `contractViolation`. -/

namespace Sys2Proof.Machine

/-! Register pairs and quadruples. -/

/-- The number of a node (R7). -/
def Node.index : Node → Nat
  | .a => 0
  | .b => 1

def Pair.get {α : Type} (p : Pair α) : Node → α
  | .a => p.a
  | .b => p.b

def Pair.set {α : Type} (p : Pair α) (x : Node) (v : α) : Pair α :=
  match x with
  | .a => { p with a := v }
  | .b => { p with b := v }

def Quad.get {α : Type} (t : Quad α) : RampId → α
  | .ofs => t.ofs
  | .dep => t.dep
  | .ga => t.ga
  | .gb => t.gb

def Quad.set {α : Type} (t : Quad α) (r : RampId) (v : α) : Quad α :=
  match r with
  | .ofs => { t with ofs := v }
  | .dep => { t with dep := v }
  | .ga => { t with ga := v }
  | .gb => { t with gb := v }

/-! One bank (20_memory.md R41 to R43). -/

/-- What an unlisted word reads as: +0.0 (log entry 6). -/
def unlisted : F32 := 0x00000000#32

/-- The word at index `i`. -/
def bankRead : Bank → Nat → F32
  | [], _ => unlisted
  | c :: t, i => if c.1 = i then c.2 else bankRead t i

/-- The bank with the word `v` at index `i`, in canonical form again. -/
def bankWrite : Bank → Nat → F32 → Bank
  | [], i, v => if v = unlisted then [] else [(i, v)]
  | c :: t, i, v =>
    if c.1 < i then c :: bankWrite t i v
    else
      let rest := if c.1 = i then t else c :: t
      if v = unlisted then rest else (i, v) :: rest

/-- `MemWrite(c, i, +0.0)` for every `i < len`, in any order (R49): the entries below `len` go. Words
at `len` and above keep what they held (R41). Log entry 19. -/
def bankZero (len : Nat) (m : Bank) : Bank := m.filter (fun c => decide (len ≤ c.1))

/-- The canonical form of a bank: indexes strictly rising, no entry equal to `unlisted`. -/
def bankWf : Bank → Bool
  | [] => true
  | c :: t => decide (c.2 ≠ unlisted) && t.all (fun e => decide (c.1 < e.1)) && bankWf t

/-- The canonical form of the memory. -/
def Memory.wf (m : Memory) : Bool := bankWf m.a && bankWf m.b

/-- `MemRead(c, i)` (R42). -/
def memRead (m : Memory) (c : Node) (i : Nat) : F32 := bankRead (m.get c) i

/-- `MemWrite(c, i, v)` (R43). -/
def memWrite (m : Memory) (c : Node) (i : Nat) (v : F32) : Memory :=
  m.set c (bankWrite (m.get c) i v)

/-- The zero-fill of prepare and clear: the words below `len` of the banks below `alloc` (R49). -/
def memZero (m : Memory) (alloc len : Nat) : Memory :=
  { a := if 0 < alloc then bankZero len m.a else m.a
    b := if 1 < alloc then bankZero len m.b else m.b }

/-! Ports, free values, outcomes. -/

/-- The next command word and the state without it, if one has arrived (R180). -/
def takeCommand (s : State) : Option (Cmd × State) :=
  match s.port with
  | [] => none
  | w :: rest => some (w, { s with port := rest })

/-- The host puts a command word on the port, behind those that wait (R180). -/
def offer (s : State) (w : Cmd) : State := { s with port := s.port ++ [w] }

/-- `emit(a, b)`: one packet, node A in the upper word (R75). -/
def emit (a b : F32) (s : State) : State := { s with out := s.out ++ [a ++ b] }

/-- How many free values one command may use; more than any command does. Log entry 4. -/
def freeStride : Nat := 64

/-- The state after a command that used free values `s.free` to `s.free + 63`. -/
def spendFree (s : State) : State := { s with free := s.free + freeStride }

/-- An illegal command is discarded: nothing changes, nothing is emitted (R72). -/
def discard (s : State) : Result := .next s

/-- `raise ContractViolation(NotPrepared)` (60_exceptions.md R172 to R174). -/
def contractViolation : Result := .fault .notPrepared

/-- The reset event (70_reset_and_hazards.md R190), which the host asserts and no command causes:
every register takes its reset value and waiting commands are dropped. The record of packets already
emitted and the count of free values used are the model's own and stay. Log entry 20. -/
def hardReset (s : State) : State :=
  { State.resetWith s.params with out := s.out, free := s.free }

end Sys2Proof.Machine
end

