-- ==== Sys2Proof/Machine/Flags.lean ====
section
/-! DEFINITION. The flags. There are no arithmetic flags and no condition codes; the only flag-like
state is the pair of ready bits (10_state.md R13, R14). This file is the test of them that each
command makes (60_exceptions.md R173). -/

namespace Sys2Proof.Machine

/-- A command that needs `dbReady = 1` (R173: DBCLR, DBSETD, DBPROC). -/
def needDb (s : State) (r : Result) : Result := if s.db.ready then r else contractViolation

/-- A command that needs `fnReady = 1` (R173: CLEAR, TICK and the five setters). -/
def needFn (s : State) (r : Result) : Result := if s.net.ready then r else contractViolation

end Sys2Proof.Machine
end

