-- ==== Sys2Proof/Machine/Float.lean ====
section
/-! DEFINITION. The binary32 primitives of 00_scope.md R8 and the constants of R9.

A finite value is an integer number of units of 2^-149, the least subnormal. Each operation is
computed exactly on units and rounded once, to nearest with ties to even, subnormals kept (decision
D2). A result that is NaN is an unknown quiet NaN (93_implementation_defined.md U6): every operation
that can create one takes the number `q` of the free value it uses. Written from general knowledge
of IEEE 754 as the spec's K1 and K2 are; log entries 4 and 17. -/

namespace Sys2Proof.Machine

/-! Fields of a binary32 word (R7). -/

/-- Bit 31. -/
def fsign (a : F32) : Bool := decide (2 ^ 31 ≤ a.toNat)

/-- Bits 30 to 0, which order the magnitudes. -/
def fmag (a : F32) : Nat := a.toNat % 2 ^ 31

/-- The magnitude bits of infinity. -/
def infMag : Nat := 0x7F800000

def isNaN (a : F32) : Bool := decide (infMag < fmag a)

def isInf (a : F32) : Bool := decide (fmag a = infMag)

def isFinite (a : F32) : Bool := decide (fmag a < infMag)

def isZero (a : F32) : Bool := decide (fmag a = 0)

/-- The word with the given sign and magnitude bits. -/
def fpack (s : Bool) (m : Nat) : F32 := BitVec.ofNat 32 ((if s then 2 ^ 31 else 0) + m)

/-! Constants. -/

/-- +0.0 -/
def f0 : F32 := 0x00000000#32
/-- 1.0 -/
def f1 : F32 := 0x3F800000#32
/-- -1.0 -/
def fNeg1 : F32 := 0xBF800000#32
/-- 0.5 -/
def fHalf : F32 := 0x3F000000#32
/-- 1000.0 -/
def f1000 : F32 := 0x447A0000#32
/-- 8388608.0 = 2^23 -/
def f2p23 : F32 := 0x4B000000#32
/-- HALF_PI (R9) -/
def halfPi : F32 := 0x3FC90FDB#32
/-- PI (R9) -/
def fpi : F32 := 0x40490FDB#32
/-- TWO_PI (R9) -/
def twoPi : F32 := 0x40C90FDB#32

/-! Exact values and the one rounding. -/

/-- Units of 2^-149 of the magnitude bits of a finite value: subnormal `frac`, normal
`(2^23 + frac) * 2^(exp - 1)`. -/
def unitsOf (m : Nat) : Nat :=
  if m / 2 ^ 23 = 0 then m else (2 ^ 23 + m % 2 ^ 23) * 2 ^ (m / 2 ^ 23 - 1)

/-- The signed units of a finite value. -/
def fval (a : F32) : Int := if fsign a then -(unitsOf (fmag a) : Int) else unitsOf (fmag a)

/-- `n / d` rounded to the nearest integer, a tie to the even one. -/
def divEven (n d : Nat) : Nat :=
  let r := n % d
  if d < 2 * r ∨ (2 * r = d ∧ (n / d) % 2 = 1) then n / d + 1 else n / d

/-- The number of low bits a magnitude of `v` whole units loses to the 24-bit significand. -/
def dropBits (v : Nat) : Nat := v.log2 + 1 - 24

/-- The magnitude bits nearest to `n / d` units, ties to even, overflow to infinity. -/
def roundMag (n d : Nat) : Nat :=
  let k := dropBits (n / d)
  min (k * 2 ^ 23 + divEven n (d * 2 ^ k)) infMag

/-- An exact sum of units as a binary32 value; `negZero` is the sign of an exact zero. -/
def ofUnits (negZero : Bool) (z : Int) : F32 :=
  if z = 0 then fpack negZero 0 else fpack (decide (z < 0)) (roundMag z.natAbs 1)

/-- Free value number `q` as a quiet NaN: its sign and payload are unknown (U6). -/
def freshNaN (q : Nat) : F32 := Config.free q ||| 0x7FC00000#32

/-! The arithmetic of R8. -/

/-- `-a`: the sign bit flipped. -/
def fneg (a : F32) : F32 := a ^^^ 0x80000000#32

/-- `fabs(a)`: clear the sign bit. -/
def fabs (a : F32) : F32 := a &&& 0x7FFFFFFF#32

/-- `fadd(a, b)`. -/
def fadd (q : Nat) (a b : F32) : F32 :=
  if isNaN a ∨ isNaN b then freshNaN q
  else if isInf a then (if isInf b ∧ fsign a ≠ fsign b then freshNaN q else a)
  else if isInf b then b
  else ofUnits (fsign a && fsign b) (fval a + fval b)

/-- `fsub(a, b)`. -/
def fsub (q : Nat) (a b : F32) : F32 := fadd q a (fneg b)

/-- `fmul(a, b)`. -/
def fmul (q : Nat) (a b : F32) : F32 :=
  let s := fsign a != fsign b
  if isNaN a ∨ isNaN b then freshNaN q
  else if isInf a ∨ isInf b then
    (if isZero a ∨ isZero b then freshNaN q else fpack s infMag)
  else fpack s (roundMag (unitsOf (fmag a) * unitsOf (fmag b)) (2 ^ 149))

/-- `fdiv(a, b)`. -/
def fdiv (q : Nat) (a b : F32) : F32 :=
  let s := fsign a != fsign b
  if isNaN a ∨ isNaN b then freshNaN q
  else if isInf a then (if isInf b then freshNaN q else fpack s infMag)
  else if isInf b then fpack s 0
  else if isZero b then (if isZero a then freshNaN q else fpack s infMag)
  else fpack s (roundMag (unitsOf (fmag a) * 2 ^ 149) (unitsOf (fmag b)))

/-! The comparisons of R8: false when an operand is NaN, `-0.0` equal to `+0.0`. -/

/-- Signed magnitude bits, in the order of the values that are not NaN. -/
def fkey (a : F32) : Int := if fsign a then -(fmag a : Int) else fmag a

/-- `a < b` -/
def flt (a b : F32) : Bool := !isNaN a && !isNaN b && decide (fkey a < fkey b)

/-- `a <= b` -/
def fle (a b : F32) : Bool := !isNaN a && !isNaN b && decide (fkey a ≤ fkey b)

/-- `a > b` -/
def fgt (a b : F32) : Bool := flt b a

/-- `a >= b` -/
def fge (a b : F32) : Bool := fle b a

/-! Conversions of R8. -/

/-- `I32ToF32(k)`, on any integer (log entry 18). -/
def intToF32 (k : Int) : F32 := ofUnits false (k * 2 ^ 149)

/-- `U32ToF32(k)`. -/
def natToF32 (k : Nat) : F32 := intToF32 (k : Int)

/-- `FloorSatU32(v)`: 0 for NaN and below zero, else the floor, at most 2^32 - 1. -/
def floorSatU32 (v : F32) : Nat :=
  if isNaN v ∨ flt v f0 then 0 else min (unitsOf (fmag v) / 2 ^ 149) (2 ^ 32 - 1)

end Sys2Proof.Machine
end

