-- ==== Sys2Proof/Machine/Delay.lean ====
section
/-! DEFINITION. The Delay Buffer Engine: its four operations and the commands DBPREP, DBCLR, DBSETD,
DBPROC (40_delay_buffer.md). -/

namespace Sys2Proof.Machine

/-- `DB.prepare(maxLen, n)` (R81). -/
def dbPrepare (p : Params) (maxLen n : Nat) (b : Dbe) : Dbe :=
  let len := clampN maxLen 2 p.maxLen
  let alloc := min n 2
  { ready := true
    len := BitVec.ofNat 32 len
    alloc := BitVec.ofNat 8 alloc
    w := ⟨0, 0⟩
    d := ⟨1, 1⟩
    buf := memZero b.buf alloc len }

/-- `DB.clear()` (R84). -/
def dbClear (b : Dbe) : Dbe := { b with buf := memZero b.buf b.alloc.toNat b.len.toNat }

/-- One offset of the setter: `clampI(v, 1, L-1)` (R85). -/
def delayOffset (len : Word) (v : Int) : Word :=
  BitVec.ofNat 32 (clampI v 1 ((len.toNat : Int) - 1)).toNat

/-- `DB.setDelaySamples(a, b)` (R85). -/
def dbSetDelay (offA offB : Int) (b : Dbe) : Dbe :=
  { b with d := ⟨delayOffset b.len offA, delayOffset b.len offB⟩ }

/-- `mc`, the modulation sample clamped to non-negative, NaN to +0.0 (R87). -/
def modClamp (m : F32) : F32 := if fge m f0 then m else f0

/-- `k`, the integer part of the modulation (R87). -/
def modInt (m : F32) : Nat := floorSatU32 (modClamp m)

/-- `f`, the fractional part of the modulation (R87). Uses free value `q`. -/
def modFrac (q : Nat) (m : F32) : F32 :=
  if flt (modClamp m) f2p23 then fsub q (modClamp m) (natToF32 (modInt m)) else f0

/-- `rb = (w[X] - d[X]) mod L`, the read base (R87). -/
def readBase (b : Dbe) (x : Node) : Nat :=
  modLen ((b.w.get x).toNat - (b.d.get x).toNat) b.len.toNat

/-- `(rb - k - j) mod L`: `i0` for `j = 0`, `i1` for `j = 1` (R87). -/
def readIndex (b : Dbe) (x : Node) (k j : Nat) : Nat :=
  modLen ((readBase b x : Int) - k - j) b.len.toNat

/-- `s0 * (1 - f) + s1 * f` in the order of R87. Uses free values `q` to `q + 3`. -/
def interpolate (q : Nat) (s0 s1 f : F32) : F32 :=
  fadd (q + 3) (fmul (q + 1) s0 (fsub q f1 f)) (fmul (q + 2) s1 f)

/-- `DbRead(X, m)` (R87). Uses free values `q` to `q + 4`. -/
def dbRead (q : Nat) (b : Dbe) (x : Node) (m : F32) : F32 :=
  let k := modInt m
  interpolate (q + 1) (memRead b.buf x (readIndex b x k 0)) (memRead b.buf x (readIndex b x k 1))
    (modFrac q m)

/-- Node `X` stores its input at the write cursor and advances the cursor (R88, steps 4 and 5). -/
def dbStore (b : Dbe) (x : Node) (v : F32) : Dbe :=
  { b with
    buf := memWrite b.buf x (b.w.get x).toNat v
    w := b.w.set x (BitVec.ofNat 32 (modLen ((b.w.get x).toNat + 1) b.len.toNat)) }

/-- `ne = min(n, alloc)` (R88, R90). -/
def processedNodes (b : Dbe) (n : Nat) : Nat := min n b.alloc.toNat

/-- Node `X` is processed: `X < ne` (R88). -/
def isProcessed (b : Dbe) (n : Nat) (x : Node) : Bool := decide (x.index < processedNodes b n)

/-- Every word the command would access exists: the cursor of each processed node is below `L`, and
`L` is at most MAXLEN (20_memory.md R41). True in every state that meets R18. Log entry 8. -/
def wordsExist (p : Params) (b : Dbe) (n : Nat) : Bool :=
  decide (b.len.toNat ≤ p.maxLen) &&
  (!isProcessed b n .a || decide (b.w.a.toNat < b.len.toNat)) &&
  (!isProcessed b n .b || decide (b.w.b.toNat < b.len.toNat))

/-- One node's turn in `DB.process`: the value read, if the node is processed, and the engine after
the turn (R88). -/
def dbTurn (q : Nat) (b : Dbe) (n : Nat) (x : Node) (v m : F32) : Option F32 × Dbe :=
  if isProcessed b n x then (some (dbRead q b x m), dbStore b x v) else (none, b)

/-- `DB.process(n, in, mod)` (R88): node A, then node B. Uses free values `q` to `q + 9`. -/
def dbProcess (q : Nat) (n : Nat) (ins mods : Pair F32) (b : Dbe) : Pair (Option F32) × Dbe :=
  let ra := dbTurn q b n .a ins.a mods.a
  let rb := dbTurn (q + 5) ra.2 n .b ins.b mods.b
  (⟨ra.1, rb.1⟩, rb.2)

/-! The commands. -/

/-- DBPREP (R82). -/
def execDbprep (n : BitVec 8) (maxLen : Word) (s : State) : Result :=
  .next { s with db := dbPrepare s.params (readU32 maxLen) (readU8 n) s.db }

/-- DBCLR (R83). -/
def execDbclr (s : State) : Result :=
  needDb s (.next { s with db := dbClear s.db })

/-- DBSETD (R86). -/
def execDbsetd (offA offB : Word) (s : State) : Result :=
  needDb s (.next { s with db := dbSetDelay (readI32 offA) (readI32 offB) s.db })

/-- DBPROC (R92). -/
def execDbproc (n : BitVec 8) (inA inB modA modB : F32) (s : State) : Result :=
  needDb s <|
    if wordsExist s.params s.db (readU8 n) then
      let r := dbProcess s.free (readU8 n) ⟨inA, inB⟩ ⟨modA, modB⟩ s.db
      .next (emit (r.1.a.getD f0) (r.1.b.getD f0) (spendFree { s with db := r.2 }))
    else .fault .noSuchWord

end Sys2Proof.Machine
end

