-- ==== Sys2Proof/Machine/Sine.lean ====
section
/-! DEFINITION. The model argument `SinFn` (41_lfo_engine.md R102): the spec's default instance, the
correctly rounded sine, and any function that meets the contract. Log entries 9 and 10. -/

namespace Sys2Proof.Machine

/-- Fraction bits of the fixed-point numbers below. -/
def sinBits : Nat := 256

/-- `2 pi * 2^386`, rounded to the nearest integer. PRESUMED (general knowledge). -/
def twoPiFixed : Nat :=
  990280425626339262556429608313097475483539013693757959422752812208890491378660949553896894644386818289497897915933542

/-- A magnitude of `u` units of 2^-149 modulo 2 pi, with `sinBits` fraction bits. -/
def reduceTwoPi (u : Nat) : Nat :=
  ((u * 2 ^ (386 - 149)) % twoPiFixed) / 2 ^ (386 - sinBits)

/-- The sum of `n` terms of the sine series from the term `t` on, the next term's divisor being
`j * (j + 1)`; `x2` is the square of the argument. -/
def sinSeries (x2 : Nat) : Nat → Nat → Nat → Bool → Int → Int
  | 0, _, _, _, acc => acc
  | n + 1, t, j, neg, acc =>
    sinSeries x2 n (t * x2 / 2 ^ sinBits / (j * (j + 1))) (j + 2) (!neg)
      (if neg then acc - t else acc + t)

/-- The sine of `x * 2^-256`, in units of 2^-256. -/
def sinFixed (x : Nat) : Int := sinSeries (x * x / 2 ^ sinBits) 64 x 2 false 0

/-- The correctly rounded sine of a finite value (R102 (e)): odd, magnitude at most 1. UNVERIFIED
that 256 bits decide every rounding; log entry 9. -/
def sinRounded (a : F32) : F32 :=
  let z := sinFixed (reduceTwoPi (unitsOf (fmag a)))
  fpack (fsign a != decide (z < 0))
    (min (roundMag (z.natAbs * 2 ^ 149) (2 ^ sinBits)) (fmag f1))

/-- A value of any conforming sine for a finite argument: +0.0 at +0.0 (R102 (c)), in `[-1, 1]`
(R102 (b)), otherwise unknown. -/
def sinConforming (a : F32) : F32 :=
  if a = f0 then f0
  else if fle fNeg1 (Config.sinRaw a) && fle (Config.sinRaw a) f1 then Config.sinRaw a
  else f0

/-- `SinFn(a)` (R102). A NaN or infinite argument gives a NaN that depends on the argument only. -/
def sinFn (k : SinKind) (a : F32) : F32 :=
  if isFinite a then
    match k with
    | .correctlyRounded => sinRounded a
    | .anyConforming => sinConforming a
  else if isNaN (Config.sinRaw a) then Config.sinRaw a
  else Config.sinRaw a ||| 0x7FC00000#32

end Sys2Proof.Machine
end

