-- ==== Sys2Proof/Machine/LfoEngine.lean ====
section
/-! DEFINITION. The LFO engine: waveform generator, phase accumulators, and the commands SETRATE and
SETTYPE (41_lfo_engine.md). -/

namespace Sys2Proof.Machine

/-- `Lfo(typ, p)` (R101). Uses free values `q`, `q + 1`. -/
def lfoValue (k : SinKind) (q : Nat) (typ : Waveform) (p : F32) : F32 :=
  match typ with
  | .sine => fadd (q + 1) fHalf (fmul q fHalf (sinFn k p))
  | .triangle => fdiv (q + 1) (fabs (fsub q p fpi)) fpi
  | .sawtooth => fdiv q p twoPi

/-- One phase of `Lfo.advance()`: one conditional subtraction (R106). Uses free values `q`, `q + 1`. -/
def advancePhase (q : Nat) (ph inc : F32) : F32 :=
  let s := fadd q ph inc
  if fge s twoPi then fsub (q + 1) s twoPi else s

/-- `Lfo.advance()` (R106). Uses free values `q` to `q + 3`. -/
def lfoAdvance (q : Nat) (l : Lfo) : Lfo :=
  { l with ph := ⟨advancePhase q l.ph.a l.inc, advancePhase (q + 2) l.ph.b l.inc⟩ }

/-- `PhaseInc(rate, fs)` (R108). Uses free values `q` to `q + 2`. -/
def phaseInc (q : Nat) (rate fs : F32) : F32 :=
  let half := fmul q fs fHalf
  let r := if fgt rate half then half else rate
  fmul (q + 2) twoPi (fdiv (q + 1) r fs)

/-- The non-negative saturation of SETRATE and SETDEP: a negative value or NaN gives +0.0 (R109,
R137). -/
def nonNegative (v : F32) : F32 := if fge v f0 then v else f0

/-- SETRATE (R109). -/
def execSetrate (hz : F32) (s : State) : Result :=
  needFn s <|
    let rate := nonNegative hz
    .next (spendFree
      { s with lfo := { s.lfo with rate := rate, inc := phaseInc s.free rate s.net.fs } })

/-- SETTYPE (R111). A reserved code is an illegal command, discarded whatever the ready bits are
(R69, R72); no word decodes to such a term. -/
def execSettype (n : BitVec 8) (s : State) : Result :=
  match waveOf n with
  | none => discard s
  | some typ => needFn s (.next { s with lfo := { s.lfo with typ := typ } })

end Sys2Proof.Machine
end

