-- ==== Sys2Proof/Machine/Ramp.lean ====
section
/-! DEFINITION. The ramp port (43_ramp_port.md R150 to R157) with its two kinds of unit: the spec's
reference ramp (R158 to R161), and a ramp of which nothing is known but the contract. -/

namespace Sys2Proof.Machine

/-! The reference ramp. -/

/-- `N` of R159. Uses free values `q`, `q + 1`, whose NaN gives `N = 1` whatever they are. -/
def refRampLen (rampMs : F32) (q : Nat) (fs : F32) : Nat :=
  max 1 (floorSatU32 (fdiv (q + 1) (fmul q rampMs fs) f1000))

/-- `RefRamp.prepare(fs, imm, init)` (R159). -/
def refRampPrepare (rampMs : F32) (q : Nat) (fs : F32) (imm : Bool) (init : F32) (r : RefRamp) :
    RefRamp :=
  let r1 := { r with len := BitVec.ofNat 32 (refRampLen rampMs q fs), tgt := init }
  if imm then { r1 with cur := init, act := init, left := 0, dirty := false }
  else { r1 with dirty := true }

/-- `RefRamp.setTarget(v, force)` (R160). -/
def refRampSetTarget (v : F32) (force : Bool) (r : RefRamp) : RefRamp :=
  if force then { r with tgt := v, cur := v, act := v, left := 0, dirty := false }
  else { r with tgt := v, dirty := true }

/-- The first half of `RefRamp.next()`: a pending target is picked up (R161). Uses free values `q`,
`q + 1`. -/
def refRampPickUp (q : Nat) (r : RefRamp) : RefRamp :=
  if r.dirty then
    { r with act := r.tgt, dirty := false, left := r.len,
             step := fdiv (q + 1) (fsub q r.tgt r.cur) (natToF32 r.len.toNat) }
  else r

/-- `RefRamp.next()` (R161): the unit after the step; the value returned is its `cur`. Uses free
values `q` to `q + 2`. -/
def refRampNext (q : Nat) (r : RefRamp) : RefRamp :=
  let r1 := refRampPickUp q r
  if 0 < r1.left.toNat then
    { r1 with left := r1.left - 1,
              cur := if r1.left - 1 = 0 then r1.act else fadd (q + 2) r1.cur r1.step }
  else r1

/-! Any ramp that keeps the contract. -/

/-- A value of a glide from `start` to `tgt`: unknown, between the two, both included (R155 (b)).
When one of them is NaN there is no "between" and the value is unknown. Log entry 12. -/
def glideValue (x start tgt : F32) : F32 :=
  if isNaN start || isNaN tgt then x
  else if (fle start x && fle x tgt) || (fle tgt x && fle x start) then x
  else tgt

/-- `prepare` (R151): configures an unknown fixed duration and, with `imm`, jumps to `init`. Without
`imm`, which the core never asks for, the unit glides to `init` (log entry 12). DESIGN CHOICE, unsafe
(log entry 12): after a jump the value set counts as the one applied, though no `next` has returned
it. -/
def contractRampPrepare (q : Nat) (imm : Bool) (init : F32) (r : ContractRamp) : ContractRamp :=
  let dur := (Config.free q).toNat
  if imm then { cur := init, start := init, tgt := init, left := 0, dur := dur }
  else { cur := r.cur, start := r.cur, tgt := init, left := dur, dur := dur }

/-- `setTarget` (R152). DEDUCED, unsafe (log entry 12): a forced value stays until the next call that
sets one. DESIGN CHOICE, unsafe (log entry 12): a forced value that no `next` has returned yet counts as
"the value applied just before the call" (R155 (b)), so the glide of an unforced call after it starts
there and not at the value `next` last returned. R158 and R160 say so of `RefRamp` only. -/
def contractRampSetTarget (v : F32) (force : Bool) (r : ContractRamp) : ContractRamp :=
  if force then { r with cur := v, start := v, tgt := v, left := 0 }
  else { r with start := r.cur, tgt := v, left := r.dur }

/-- `next` (R153): the target once the duration is over, an unknown value of the glide before
(R155). The value returned is the unit's `cur`. -/
def contractRampNext (q : Nat) (r : ContractRamp) : ContractRamp :=
  match r.left with
  | 0 => { r with cur := r.tgt }
  | k + 1 => { r with left := k, cur := glideValue (Config.free q) r.start r.tgt }

/-! The port: the three calls the core makes on a unit (R151 to R153). -/

/-- `Ramp[r].prepare(fs, imm, init)`. Uses free values `q`, `q + 1`. -/
def rampPrepare (p : Params) (q : Nat) (fs : F32) (imm : Bool) (init : F32) : RampUnit → RampUnit
  | .ref r => .ref (refRampPrepare p.rampMs q fs imm init r)
  | .contract r => .contract (contractRampPrepare q imm init r)

/-- `Ramp[r].setTarget(v, force)`. -/
def rampSetTarget (v : F32) (force : Bool) : RampUnit → RampUnit
  | .ref r => .ref (refRampSetTarget v force r)
  | .contract r => .contract (contractRampSetTarget v force r)

/-- `Ramp[r].next()`: the unit after one step. Uses free values `q` to `q + 2`. -/
def rampNext (q : Nat) : RampUnit → RampUnit
  | .ref r => .ref (refRampNext q r)
  | .contract r => .contract (contractRampNext q r)

/-- The value last applied: what the `next` that led to this unit returned. -/
def rampValue : RampUnit → F32
  | .ref r => r.cur
  | .contract r => r.cur

end Sys2Proof.Machine
end

