-- ==== Sys2Proof/Machine/Network.lean ====
section
/-! DEFINITION. The recursive feedback processor: the commands PREPARE, CLEAR, TICK, SETOFS, SETDEP,
SETGAIN (42_feedback_network.md). -/

namespace Sys2Proof.Machine

/-- `Ms2Smp(ms)` (R122). Uses free values `q`, `q + 1`. -/
def ms2Smp (q : Nat) (fs ms : F32) : F32 := fdiv (q + 1) (fmul q ms fs) f1000

/-- `Ms2Len(ms)` (R123). -/
def ms2Len (q : Nat) (fs ms : F32) : Nat := min (floorSatU32 (ms2Smp q fs ms) + 1) (2 ^ 32 - 1)

/-- The saturation of a feedback gain into `[-1, 1]`, NaN to +0.0 (R138). -/
def gainClamp (g : F32) : F32 :=
  if fge g fNeg1 ∧ fle g f1 then g
  else if fgt g f1 then f1
  else if flt g fNeg1 then fNeg1
  else f0

/-- The ramp of a node's feedback gain (R138). -/
def gainRamp : Node → RampId
  | .a => .ga
  | .b => .gb

/-! PREPARE and CLEAR. -/

/-- The four `Ramp[r].prepare(fs, 1, tgt[r])` calls of PREPARE (R121, R163). Uses free values `q` to
`q + 7`. -/
def prepareRamps (p : Params) (q : Nat) (fs : F32) (tgt : Quad F32) (r : Quad RampUnit) :
    Quad RampUnit :=
  { ofs := rampPrepare p q fs true tgt.ofs r.ofs
    dep := rampPrepare p (q + 2) fs true tgt.dep r.dep
    ga := rampPrepare p (q + 4) fs true tgt.ga r.ga
    gb := rampPrepare p (q + 6) fs true tgt.gb r.gb }

/-- PREPARE (R121). `rate`, `typ` and the targets are kept. -/
def execPrepare (n : BitVec 8) (sampleRate maxTimeMs : F32) (s : State) : Result :=
  let q := s.free
  let base : Int := s.params.baseDelay
  .next (spendFree
    { s with
      db := dbSetDelay base base
        (dbPrepare s.params (ms2Len q sampleRate maxTimeMs) (readU8 n) s.db)
      lfo := { s.lfo with ph := ⟨f0, halfPi⟩, inc := phaseInc (q + 2) s.lfo.rate sampleRate }
      net :=
        { s.net with
          ready := true
          fs := sampleRate
          fb := ⟨f0, f0⟩
          ramp := prepareRamps s.params (q + 5) sampleRate s.net.tgt s.net.ramp } })

/-- CLEAR (R125). -/
def execClear (s : State) : Result :=
  needFn s (.next { s with db := dbClear s.db, net := { s.net with fb := ⟨f0, f0⟩ } })

/-! TICK, by the steps of R130. -/

/-- Step 1: the two LFO values, on the phases before the advance. Uses free values `q` to `q + 3`. -/
def tickLfo (k : SinKind) (q : Nat) (l : Lfo) : Pair F32 :=
  ⟨lfoValue k q l.typ l.ph.a, lfoValue k (q + 2) l.typ l.ph.b⟩

/-- The four `next` calls of steps 3 and 4, once each: DEP, OFS, GA, GB (R163). Uses free values `q`
to `q + 11`. -/
def tickRamps (q : Nat) (r : Quad RampUnit) : Quad RampUnit :=
  { dep := rampNext q r.dep
    ofs := rampNext (q + 3) r.ofs
    ga := rampNext (q + 6) r.ga
    gb := rampNext (q + 9) r.gb }

/-- Step 3: `mod[X] = lfo[X] * dep + ofs` (R131). Uses free values `q` to `q + 3`. -/
def tickMod (q : Nat) (lfo : Pair F32) (dep ofs : F32) : Pair F32 :=
  ⟨fadd (q + 1) (fmul q lfo.a dep) ofs, fadd (q + 3) (fmul (q + 2) lfo.b dep) ofs⟩

/-- Step 4: the feedback contributions `cA`, `cB` (R132). Uses free values `q`, `q + 1`. -/
def tickFeedback (q : Nat) (fb : Pair F32) (gA gB : F32) : Pair F32 :=
  ⟨fmul q fb.a gA, fmul (q + 1) fb.b gB⟩

/-- Step 5: `in[X] = (x[X] + cA) + cB` (R132). Uses free values `q` to `q + 3`. -/
def tickInput (q : Nat) (x c : Pair F32) : Pair F32 :=
  ⟨fadd (q + 1) (fadd q x.a c.a) c.b, fadd (q + 3) (fadd (q + 2) x.b c.a) c.b⟩

/-- The ramp units after steps 3 and 4 of a TICK in state `s`. -/
def ramped (s : State) : Quad RampUnit := tickRamps (s.free + 8) s.net.ramp

/-- `mod[0]`, `mod[1]` of a TICK in state `s` (steps 1 and 3). -/
def modulation (s : State) : Pair F32 :=
  tickMod (s.free + 20) (tickLfo s.params.sin s.free s.lfo)
    (rampValue (ramped s).dep) (rampValue (ramped s).ofs)

/-- `in[0]`, `in[1]` of a TICK in state `s` (steps 4 and 5). -/
def combinedInput (xA xB : F32) (s : State) : Pair F32 :=
  tickInput (s.free + 26) ⟨xA, xB⟩
    (tickFeedback (s.free + 24) s.net.fb (rampValue (ramped s).ga) (rampValue (ramped s).gb))

/-- TICK (R130). -/
def execTick (n : BitVec 8) (xA xB : F32) (s : State) : Result :=
  needFn s <|
    if wordsExist s.params s.db (readU8 n) then
      let r := dbProcess (s.free + 30) (readU8 n) (combinedInput xA xB s) (modulation s) s.db
      let fb : Pair F32 := ⟨r.1.a.getD s.net.fb.a, r.1.b.getD s.net.fb.b⟩
      .next (emit fb.a fb.b (spendFree
        { s with
          db := r.2
          lfo := lfoAdvance (s.free + 4) s.lfo
          net := { s.net with fb := fb, ramp := ramped s } }))
    else .fault .noSuchWord

/-! The setters. -/

/-- A setter's last two lines: `tgt[r] <- v; Ramp[r].setTarget(v, F)` (R136 to R138). -/
def setTarget (r : RampId) (v : F32) (force : Bool) (m : Net) : Net :=
  { m with tgt := m.tgt.set r v, ramp := m.ramp.set r (rampSetTarget v force (m.ramp.get r)) }

/-- SETOFS (R136). -/
def execSetofs (force : Bool) (ms : F32) (s : State) : Result :=
  needFn s <|
    let v := fsub (s.free + 2) (ms2Smp s.free s.net.fs ms) (intToF32 s.params.baseDelay)
    .next (spendFree { s with net := setTarget .ofs v force s.net })

/-- SETDEP (R137). -/
def execSetdep (force : Bool) (ms : F32) (s : State) : Result :=
  needFn s <|
    let v := ms2Smp s.free s.net.fs (nonNegative ms)
    .next (spendFree { s with net := setTarget .dep v force s.net })

/-- SETGAIN (R138). A reserved node is an illegal command, discarded whatever the ready bits are
(R68, R72); no word decodes to such a term. -/
def execSetgain (n : BitVec 8) (force : Bool) (gain : F32) (s : State) : Result :=
  match nodeOf n with
  | none => discard s
  | some x => needFn s (.next { s with net := setTarget (gainRamp x) (gainClamp gain) force s.net })

end Sys2Proof.Machine
end

