-- ==== Sys2Proof/Machine/Dispatch.lean ====
section
/-! DEFINITION. The meaning of each command, one arm a constructor (30_encoding.md R64). -/

namespace Sys2Proof.Machine

def exec (i : Instr) (s : State) : Host.Outcome State Fault Refusal :=
  match i with
  -- Delay Buffer Engine
  | .dbprep n maxLen => Sys2Proof.Machine.execDbprep n maxLen s
  | .dbclr => Sys2Proof.Machine.execDbclr s
  | .dbsetd offA offB => Sys2Proof.Machine.execDbsetd offA offB s
  | .dbproc n inA inB modA modB => Sys2Proof.Machine.execDbproc n inA inB modA modB s
  -- lifecycle and processing of the whole core
  | .prepare n sampleRate maxTimeMs => Sys2Proof.Machine.execPrepare n sampleRate maxTimeMs s
  | .clear => Sys2Proof.Machine.execClear s
  | .tick n xA xB => Sys2Proof.Machine.execTick n xA xB s
  -- control surface
  | .setofs force ms => Sys2Proof.Machine.execSetofs force ms s
  | .setdep force ms => Sys2Proof.Machine.execSetdep force ms s
  | .setgain n force gain => Sys2Proof.Machine.execSetgain n force gain s
  | .setrate hz => Sys2Proof.Machine.execSetrate hz s
  | .settype n => Sys2Proof.Machine.execSettype n s

end Sys2Proof.Machine
end

