-- ==== Sys2Proof/Machine/Step.lean ====
section
/-! DEFINITION. One step of the core: it takes the next command word, if one has arrived, and
executes it or discards it (60_exceptions.md R177, R180, R187). -/

namespace Sys2Proof.Machine

/-- One step. With no command waiting the core is idle and holds its state (R187, R191). An illegal
word is discarded, whatever the ready bits are (30_encoding.md R72). -/
def step (s : State) : Host.Outcome State Fault Refusal :=
  match takeCommand s with
  | none => .next s
  | some (w, s1) =>
    match decode w with
    | .illegal _ => discard s1
    | .cmd i => exec i s1

/-- A run: the words applied one after the other to a start state, up to the first fault (R187). -/
def runWords : List Cmd → State → Host.Outcome State Fault Refusal
  | [], s => .next s
  | w :: ws, s =>
    match step { s with port := w :: s.port } with
    | .next t => runWords ws t
    | .fault r => .fault r
    | .refused r => .refused r

/-- The state with the command of the low `nbits` bits of `w` first on the command port, where
`step` takes its next command. Nothing else changes. Log entry 16. -/
def State.withFetchWord (s : State) (nbits w : Nat) : State :=
  { s with port := BitVec.ofNat 160 (w % 2 ^ nbits) :: s.port }

end Sys2Proof.Machine
end

