-- ==== Sys2Proof/Laws/Decode.lean ====
section
/-! SUPPORT. The command word and its fields (30_encoding.md R60): taking fields out undoes packing
and the reverse, and the mask test of R66 field by field. -/

namespace Sys2Proof

theorem toNat_append_mul {n m : Nat} (x : BitVec n) (y : BitVec m) :
    (x ++ y).toNat = x.toNat * 2 ^ m + y.toNat := by
  rw [BitVec.toNat_append, ← Nat.shiftLeft_add_eq_or_of_lt y.isLt, Nat.shiftLeft_eq]

/-- The word as a number, most significant field first (R60). -/
theorem toNat_packFields (x : Fields) :
    (packFields x).toNat =
      ((((((x.op.toNat * 2 ^ 8 + x.n.toNat) * 2 ^ 15 + x.rsv.toNat) * 2 ^ 1 + x.f.toNat) * 2 ^ 32
        + x.a0.toNat) * 2 ^ 32 + x.a1.toNat) * 2 ^ 32 + x.a2.toNat) * 2 ^ 32 + x.a3.toNat := by
  show (x.op ++ x.n ++ x.rsv ++ x.f ++ x.a0 ++ x.a1 ++ x.a2 ++ x.a3 :
    BitVec (8 + 8 + 15 + 1 + 32 + 32 + 32 + 32)).toNat = _
  simp only [toNat_append_mul]

/-- Two words of fields are equal when their fields are. -/
theorem Fields.ext_toNat {x y : Fields} (h0 : x.op.toNat = y.op.toNat) (h1 : x.n.toNat = y.n.toNat)
    (h2 : x.rsv.toNat = y.rsv.toNat) (h3 : x.f.toNat = y.f.toNat) (h4 : x.a0.toNat = y.a0.toNat)
    (h5 : x.a1.toNat = y.a1.toNat) (h6 : x.a2.toNat = y.a2.toNat)
    (h7 : x.a3.toNat = y.a3.toNat) : x = y := by
  cases x; cases y
  simp only [Fields.mk.injEq]
  exact ⟨BitVec.eq_of_toNat_eq h0, BitVec.eq_of_toNat_eq h1, BitVec.eq_of_toNat_eq h2,
    BitVec.eq_of_toNat_eq h3, BitVec.eq_of_toNat_eq h4, BitVec.eq_of_toNat_eq h5,
    BitVec.eq_of_toNat_eq h6, BitVec.eq_of_toNat_eq h7⟩

theorem fields_packFields (x : Fields) : fields (packFields x) = x := by
  have h0 := x.op.isLt
  have h1 := x.n.isLt
  have h2 := x.rsv.isLt
  have h3 := x.f.isLt
  have h4 := x.a0.isLt
  have h5 := x.a1.isLt
  have h6 := x.a2.isLt
  have h7 := x.a3.isLt
  apply Fields.ext_toNat <;>
    simp only [fields, BitVec.extractLsb'_toNat, toNat_packFields, Nat.shiftRight_eq_div_pow] <;>
    omega

theorem packFields_fields (w : Cmd) : packFields (fields w) = w := by
  apply BitVec.eq_of_toNat_eq
  have h := w.isLt
  simp only [toNat_packFields, fields, BitVec.extractLsb'_toNat, Nat.shiftRight_eq_div_pow]
  omega

theorem packFields_inj {x y : Fields} (h : packFields x = packFields y) : x = y := by
  rw [← fields_packFields x, h, fields_packFields]

/-- The mask test works field by field. -/
theorem fields_and (v w : Cmd) :
    fields (v &&& w) =
      { op := (fields v).op &&& (fields w).op, n := (fields v).n &&& (fields w).n,
        rsv := (fields v).rsv &&& (fields w).rsv, f := (fields v).f &&& (fields w).f,
        a0 := (fields v).a0 &&& (fields w).a0, a1 := (fields v).a1 &&& (fields w).a1,
        a2 := (fields v).a2 &&& (fields w).a2, a3 := (fields v).a3 &&& (fields w).a3 } := by
  simp [fields, BitVec.extractLsb'_and]

/-- `(cmd AND mask) = match` (R65), with the fields of the three words. -/
theorem mask_test_iff (v m p : Cmd) : v &&& m = p ↔ fields (v &&& m) = fields p :=
  ⟨fun h => by rw [h], fun h => by rw [← packFields_fields (v &&& m), h, packFields_fields]⟩

theorem fields_encode (i : Instr) : fields (encode i) = fieldsOf i := fields_packFields _

theorem flagOf_ofBool (f : Bool) : flagOf (BitVec.ofBool f) = f := by cases f <;> rfl

end Sys2Proof
end

