-- ==== Sys2Proof/Laws/Rounding.lean ====
section
/-! SUPPORT. The one rounding of the binary32 primitives (00_scope.md R8): it is monotone, it is
exact on binary32 values, it depends on the ratio only, and the order of magnitude bits is the order
of the values. -/

namespace Sys2Proof.Machine

/-! Rounding to an integer. -/

theorem divEven_bounds (n : Nat) {d : Nat} (hd : 0 < d) :
    2 * (divEven n d * d) ≤ 2 * n + d ∧ 2 * n ≤ 2 * (divEven n d * d) + d := by
  have h := Nat.div_add_mod n d
  have hr := Nat.mod_lt n hd
  have hc : n / d * d = d * (n / d) := Nat.mul_comm _ _
  unfold divEven
  dsimp only
  split <;> (try rw [Nat.add_mul]) <;> omega

theorem divEven_tie_up (n : Nat) {d : Nat} (hd : 0 < d) (h : 2 * (divEven n d * d) = 2 * n + d) :
    divEven n d % 2 = 0 := by
  have h1 := Nat.div_add_mod n d
  have hr := Nat.mod_lt n hd
  have hc : n / d * d = d * (n / d) := Nat.mul_comm _ _
  unfold divEven at h ⊢
  dsimp only at h ⊢
  split at h <;> rename_i hs
  · rw [if_pos hs]
    rw [Nat.add_mul] at h
    omega
  · omega

theorem divEven_tie_down (n : Nat) {d : Nat} (hd : 0 < d) (h : 2 * n = 2 * (divEven n d * d) + d) :
    divEven n d % 2 = 0 := by
  have h1 := Nat.div_add_mod n d
  have hr := Nat.mod_lt n hd
  have hc : n / d * d = d * (n / d) := Nat.mul_comm _ _
  unfold divEven at h ⊢
  dsimp only at h ⊢
  split at h <;> rename_i hs
  · rw [Nat.add_mul] at h
    omega
  · rw [if_neg hs]
    omega

theorem divEven_mono {n d n' d' : Nat} (hd : 0 < d) (hd' : 0 < d') (h : n * d' ≤ n' * d) :
    divEven n d ≤ divEven n' d' := by
  by_contra hlt
  obtain ⟨q, hq⟩ : ∃ q, q = divEven n d := ⟨_, rfl⟩
  obtain ⟨q', hq'⟩ : ∃ q', q' = divEven n' d' := ⟨_, rfl⟩
  have hb := (divEven_bounds n hd).1
  have hb' := (divEven_bounds n' hd').2
  have htu := divEven_tie_up n hd
  have htd := divEven_tie_down n' hd'
  rw [← hq] at hb htu hlt
  rw [← hq'] at hb' htd hlt
  -- q >= q' + 1, so n / d >= q - 1/2 >= q' + 1/2 >= n' / d' >= n / d: both are ties
  have e1 : 2 * (q * d) * d' ≤ (2 * n + d) * d' := Nat.mul_le_mul_right _ hb
  have e2 : 2 * n' * d ≤ (2 * (q' * d') + d') * d := Nat.mul_le_mul_right _ hb'
  have e3 : (q' + 1) * (d * d') ≤ q * (d * d') := Nat.mul_le_mul_right _ (by omega)
  have hpos : 0 < d * d' := Nat.mul_pos hd hd'
  have f1 : 2 * (q * (d * d')) ≤ 2 * (n * d') + d * d' := by nlinarith
  have f2 : 2 * (n' * d) ≤ 2 * (q' * (d * d')) + d * d' := by nlinarith
  have hqq : q * (d * d') = (q' + 1) * (d * d') := by
    rw [Nat.add_mul] at e3 ⊢; omega
  have hq1 : q = q' + 1 := Nat.eq_of_mul_eq_mul_right hpos hqq
  have f3 : 2 * (q * (d * d')) = 2 * (n * d') + d * d' := by
    rw [Nat.add_mul] at e3; omega
  have f4 : 2 * (n' * d) = 2 * (q' * (d * d')) + d * d' := by
    rw [Nat.add_mul] at e3; omega
  have g3 : 2 * (q * d) = 2 * n + d := by
    apply Nat.eq_of_mul_eq_mul_right hd'; nlinarith
  have g4 : 2 * n' = 2 * (q' * d') + d' := by
    apply Nat.eq_of_mul_eq_mul_right hd; nlinarith
  have p1 := htu g3
  have p2 := htd g4
  omega

theorem divEven_mul (m : Nat) {c : Nat} (hc : 0 < c) : divEven (m * c) c = m := by
  simp [divEven, Nat.mul_mod_left, Nat.mul_div_cancel _ hc]
  omega

/-! The significand. -/

theorem dropBits_zero {v : Nat} (h : v < 2 ^ 24) : dropBits v = 0 := by
  unfold dropBits
  by_cases hv : v = 0
  · subst hv; decide
  · have := (Nat.log2_lt hv).2 h
    omega

theorem dropBits_pos {v : Nat} (h : 2 ^ 24 ≤ v) :
    0 < dropBits v ∧ 2 ^ (dropBits v + 23) ≤ v ∧ v < 2 ^ (dropBits v + 24) := by
  have hv : v ≠ 0 := by omega
  have h1 : 24 ≤ v.log2 := (Nat.le_log2 hv).2 h
  have h2 := Nat.log2_self_le hv
  have h3 : v < 2 ^ (v.log2 + 1) := Nat.lt_log2_self
  unfold dropBits
  refine ⟨by omega, ?_, ?_⟩
  · rw [show v.log2 + 1 - 24 + 23 = v.log2 by omega]; exact h2
  · rw [show v.log2 + 1 - 24 + 24 = v.log2 + 1 by omega]; exact h3

theorem dropBits_mono {v v' : Nat} (h : v ≤ v') : dropBits v ≤ dropBits v' := by
  by_cases h1 : v < 2 ^ 24
  · simp [dropBits_zero h1]
  · obtain ⟨-, a, -⟩ := dropBits_pos (show 2 ^ 24 ≤ v by omega)
    obtain ⟨-, -, b⟩ := dropBits_pos (show 2 ^ 24 ≤ v' by omega)
    have : 2 ^ (dropBits v + 23) < 2 ^ (dropBits v' + 24) := by omega
    have := (Nat.pow_lt_pow_iff_right (by omega : 1 < 2)).1 this
    omega

/-- The significand of `n / d`: at most 2^24, and at least 2^23 when a bit is dropped. -/
theorem significand_bounds (n : Nat) {d : Nat} (hd : 0 < d) :
    divEven n (d * 2 ^ dropBits (n / d)) ≤ 2 ^ 24 ∧
    (0 < dropBits (n / d) → 2 ^ 23 ≤ divEven n (d * 2 ^ dropBits (n / d))) := by
  have hn := Nat.div_add_mod n d
  have hr := Nat.mod_lt n hd
  obtain ⟨k, hk⟩ : ∃ k, k = dropBits (n / d) := ⟨_, rfl⟩
  have hpk : 0 < 2 ^ k := Nat.pow_pos (by omega)
  have hdk : 0 < d * 2 ^ k := Nat.mul_pos hd hpk
  rw [← hk]
  constructor
  · have hlt : n / d < 2 ^ (k + 24) := by
      by_cases h1 : n / d < 2 ^ 24
      · exact lt_of_lt_of_le h1 (Nat.pow_le_pow_right (by omega) (by omega))
      · rw [hk]; exact (dropBits_pos (by omega)).2.2
    have hle : n ≤ 2 ^ 24 * (d * 2 ^ k) := by
      have h1 : d * (n / d + 1) ≤ d * 2 ^ (k + 24) := Nat.mul_le_mul_left _ hlt
      have h2 : d * 2 ^ (k + 24) = 2 ^ 24 * (d * 2 ^ k) := by rw [Nat.pow_add]; ring
      have h3 : d * (n / d + 1) = d * (n / d) + d := by ring
      omega
    calc divEven n (d * 2 ^ k) ≤ divEven (2 ^ 24 * (d * 2 ^ k)) (d * 2 ^ k) :=
          divEven_mono hdk hdk (Nat.mul_le_mul_right _ hle)
      _ = 2 ^ 24 := divEven_mul _ hdk
  · intro hpos
    have hge : 2 ^ (k + 23) ≤ n / d := by
      have : ¬ n / d < 2 ^ 24 := fun h => by rw [dropBits_zero h] at hk; omega
      rw [hk]; exact (dropBits_pos (by omega)).2.1
    have hle : 2 ^ 23 * (d * 2 ^ k) ≤ n := by
      have h1 : d * 2 ^ (k + 23) ≤ d * (n / d) := Nat.mul_le_mul_left _ hge
      have h2 : d * 2 ^ (k + 23) = 2 ^ 23 * (d * 2 ^ k) := by rw [Nat.pow_add]; ring
      omega
    calc 2 ^ 23 = divEven (2 ^ 23 * (d * 2 ^ k)) (d * 2 ^ k) := (divEven_mul _ hdk).symm
      _ ≤ divEven n (d * 2 ^ k) := divEven_mono hdk hdk (Nat.mul_le_mul_right _ hle)

/-! The rounding. -/

theorem roundMag_le_infMag (n d : Nat) : roundMag n d ≤ infMag := Nat.min_le_right _ _

/-- A larger ratio never rounds to a smaller value. -/
theorem roundMag_mono {n d n' d' : Nat} (hd : 0 < d) (hd' : 0 < d') (h : n * d' ≤ n' * d) :
    roundMag n d ≤ roundMag n' d' := by
  have hv : n / d ≤ n' / d' := by
    rw [Nat.le_div_iff_mul_le hd']
    have h1 : n / d * d ≤ n := Nat.div_mul_le_self n d
    have : n / d * d' * d ≤ n' * d := by nlinarith
    exact Nat.le_of_mul_le_mul_right this hd
  have hk := dropBits_mono hv
  have hs := significand_bounds n hd
  have hs' := significand_bounds n' hd'
  unfold roundMag
  dsimp only
  apply min_le_min_right
  rcases Nat.eq_or_lt_of_le hk with he | hlt
  · rw [← he]
    apply Nat.add_le_add_left
    apply divEven_mono (Nat.mul_pos hd (Nat.pow_pos (by omega)))
      (Nat.mul_pos hd' (Nat.pow_pos (by omega)))
    have := Nat.mul_le_mul_right (2 ^ dropBits (n / d)) h
    nlinarith
  · have := hs'.2 (by omega)
    have := hs.1
    have : (dropBits (n / d) + 1) * 2 ^ 23 ≤ dropBits (n' / d') * 2 ^ 23 :=
      Nat.mul_le_mul_right _ hlt
    omega

/-- Rounding depends on the ratio only. -/
theorem roundMag_congr {n d n' d' : Nat} (hd : 0 < d) (hd' : 0 < d') (h : n * d' = n' * d) :
    roundMag n d = roundMag n' d' :=
  Nat.le_antisymm (roundMag_mono hd hd' h.le) (roundMag_mono hd' hd h.ge)

theorem unitsOf_small {m : Nat} (h : m < 2 ^ 24) : unitsOf m = m := by
  unfold unitsOf
  split
  · rfl
  · rw [show m / 2 ^ 23 - 1 = 0 by omega]; omega

/-- Rounding a binary32 value gives it back. -/
theorem roundMag_unitsOf {m : Nat} (hm : m ≤ infMag) {c : Nat} (hc : 0 < c) :
    roundMag (unitsOf m * c) c = m := by
  have hdiv : unitsOf m * c / c = unitsOf m := Nat.mul_div_cancel _ hc
  unfold roundMag
  dsimp only
  rw [hdiv]
  by_cases hs : m < 2 ^ 24
  · rw [unitsOf_small hs, dropBits_zero hs, Nat.pow_zero, Nat.mul_one, divEven_mul _ hc]
    omega
  · have hm2 := Nat.div_add_mod m (2 ^ 23)
    have hr := Nat.mod_lt m (show 0 < 2 ^ 23 by omega)
    obtain ⟨e, he⟩ : ∃ e, e = m / 2 ^ 23 - 1 := ⟨_, rfl⟩
    obtain ⟨s, hs'⟩ : ∃ s, s = 2 ^ 23 + m % 2 ^ 23 := ⟨_, rfl⟩
    have hu : unitsOf m = s * 2 ^ e := by
      unfold unitsOf; rw [if_neg (by omega), he, hs']
    have hs1 : 2 ^ 23 ≤ s := by omega
    have hs2 : s < 2 ^ 24 := by omega
    have hp : 0 < 2 ^ e := Nat.pow_pos (by omega)
    have hk : dropBits (unitsOf m) = e := by
      have hne : unitsOf m ≠ 0 := by
        rw [hu]; exact Nat.ne_of_gt (Nat.mul_pos (by omega) hp)
      have h1 : 2 ^ (e + 23) ≤ unitsOf m := by
        rw [hu, Nat.pow_add, Nat.mul_comm]; exact Nat.mul_le_mul_right (2 ^ e) hs1
      have h2 : unitsOf m < 2 ^ (e + 23 + 1) := by
        rw [hu, show e + 23 + 1 = e + 24 by omega, Nat.pow_add, Nat.mul_comm]
        exact Nat.mul_lt_mul_of_pos_left hs2 hp
      have hlog : (unitsOf m).log2 = e + 23 := (Nat.log2_eq_iff hne).2 ⟨h1, h2⟩
      unfold dropBits; omega
    rw [hk, hu, show s * 2 ^ e * c = s * (c * 2 ^ e) by ring, divEven_mul _ (Nat.mul_pos hc hp)]
    have : e * 2 ^ 23 + s = m := by omega
    rw [this]
    exact Nat.min_eq_left hm

/-- A ratio at most a binary32 value rounds to at most it. -/
theorem roundMag_le {n d m : Nat} (hd : 0 < d) (hm : m ≤ infMag) (h : n ≤ unitsOf m * d) :
    roundMag n d ≤ m := by
  rw [← roundMag_unitsOf hm hd]
  exact roundMag_mono hd hd (Nat.mul_le_mul_right _ h)

/-- A ratio at least a binary32 value rounds to at least it. -/
theorem le_roundMag {n d m : Nat} (hd : 0 < d) (hm : m ≤ infMag) (h : unitsOf m * d ≤ n) :
    m ≤ roundMag n d := by
  calc m = roundMag (unitsOf m * d) d := (roundMag_unitsOf hm hd).symm
    _ ≤ roundMag n d := roundMag_mono hd hd (Nat.mul_le_mul_right _ h)

/-- The order of magnitude bits is the order of the values. -/
theorem unitsOf_lt {m m' : Nat} (hm : m ≤ infMag) (h : m < m') (hm' : m' ≤ infMag) :
    unitsOf m < unitsOf m' := by
  by_contra hle
  have := roundMag_le (d := 1) (by omega) hm (show unitsOf m' ≤ unitsOf m * 1 by omega)
  have e := roundMag_unitsOf hm' (c := 1) (by omega)
  rw [Nat.mul_one] at e
  omega

theorem unitsOf_mono {m m' : Nat} (h : m ≤ m') (hm' : m' ≤ infMag) : unitsOf m ≤ unitsOf m' := by
  rcases Nat.eq_or_lt_of_le h with rfl | h
  · exact le_rfl
  · exact (unitsOf_lt (by omega) h hm').le

end Sys2Proof.Machine
end

