-- ==== Sys2Proof/Laws/Float.lean ====
section
/-! SUPPORT. The binary32 primitives of 00_scope.md R8 case by case: the parts of a word, NaN results,
the order, and bounds and exact cases of the arithmetic. -/

namespace Sys2Proof.Machine

/-! The parts of a word. -/

theorem fmag_lt (a : F32) : fmag a < 2 ^ 31 := Nat.mod_lt _ (by omega)

theorem fpack_toNat (s : Bool) {m : Nat} (h : m < 2 ^ 31) :
    (fpack s m).toNat = (if s then 2 ^ 31 else 0) + m := by
  unfold fpack
  rw [BitVec.toNat_ofNat]
  cases s <;> simp <;> omega

@[simp] theorem fsign_fpack (s : Bool) {m : Nat} (h : m < 2 ^ 31) : fsign (fpack s m) = s := by
  unfold fsign
  rw [fpack_toNat s h]
  cases s <;> simp
  omega

@[simp] theorem fmag_fpack (s : Bool) {m : Nat} (h : m < 2 ^ 31) : fmag (fpack s m) = m := by
  unfold fmag
  rw [fpack_toNat s h]
  cases s <;> simp <;> omega

theorem fpack_fsign_fmag (a : F32) : fpack (fsign a) (fmag a) = a := by
  apply BitVec.eq_of_toNat_eq
  rw [fpack_toNat _ (fmag_lt a)]
  have := a.isLt
  unfold fsign fmag
  split <;> rename_i h <;> simp at h <;> omega

theorem f32_ext {a b : F32} (hs : fsign a = fsign b) (hm : fmag a = fmag b) : a = b := by
  rw [← fpack_fsign_fmag a, ← fpack_fsign_fmag b, hs, hm]

theorem infMag_lt : infMag < 2 ^ 31 := by decide

theorem fsign_iff (a : F32) : fsign a = true ↔ a.toNat / 2 ^ 31 = 1 := by
  have := a.isLt
  unfold fsign
  rw [decide_eq_true_eq]
  omega

@[simp] theorem fmag_fneg (a : F32) : fmag (fneg a) = fmag a := by
  unfold fmag fneg
  rw [BitVec.toNat_xor, Nat.xor_mod_two_pow]
  simp

@[simp] theorem fsign_fneg (a : F32) : fsign (fneg a) = !fsign a := by
  have h : (fneg a).toNat / 2 ^ 31 = a.toNat / 2 ^ 31 ^^^ 1 := by
    unfold fneg
    rw [BitVec.toNat_xor, Nat.xor_div_two_pow]
    rfl
  have ha : a.toNat / 2 ^ 31 = 0 ∨ a.toNat / 2 ^ 31 = 1 := by have := a.isLt; omega
  rw [Bool.eq_iff_iff, fsign_iff, h, Bool.not_eq_true', ← Bool.not_eq_true, fsign_iff]
  rcases ha with ha | ha <;> rw [ha] <;> decide

@[simp] theorem fmag_fabs (a : F32) : fmag (fabs a) = fmag a := by
  unfold fmag fabs
  rw [BitVec.toNat_and, show (0x7FFFFFFF#32).toNat = 2 ^ 31 - 1 by decide,
    Nat.and_two_pow_sub_one_eq_mod]
  omega

@[simp] theorem fsign_fabs (a : F32) : fsign (fabs a) = false := by
  unfold fsign fabs
  rw [BitVec.toNat_and, show (0x7FFFFFFF#32).toNat = 2 ^ 31 - 1 by decide,
    Nat.and_two_pow_sub_one_eq_mod]
  simp
  omega

/-! The four classes: NaN, infinite, finite; a NaN result is a quiet NaN. -/

/-- Bits 30 to 22 of a NaN result are ones (decision D2, U6). -/
theorem fmag_freshNaN (q : Nat) : 0x7FC00000 ≤ fmag (freshNaN q) := by
  unfold fmag freshNaN
  rw [BitVec.toNat_or, Nat.or_mod_two_pow]
  exact Nat.right_le_or

@[simp] theorem isNaN_freshNaN (q : Nat) : isNaN (freshNaN q) = true := by
  have h := fmag_freshNaN q
  have : infMag < fmag (freshNaN q) := by unfold infMag; omega
  simpa [isNaN] using this

theorem isFinite_iff (a : F32) : isFinite a = true ↔ isNaN a = false ∧ isInf a = false := by
  simp only [isFinite, isNaN, isInf, decide_eq_true_eq, decide_eq_false_iff_not]
  omega

theorem not_isNaN_fpack (s : Bool) {m : Nat} (h : m ≤ infMag) : isNaN (fpack s m) = false := by
  have := infMag_lt
  simp only [isNaN, fmag_fpack s (show m < 2 ^ 31 by omega), decide_eq_false_iff_not]
  omega

@[simp] theorem isNaN_fneg (a : F32) : isNaN (fneg a) = isNaN a := by simp [isNaN]
@[simp] theorem isInf_fneg (a : F32) : isInf (fneg a) = isInf a := by simp [isInf]
@[simp] theorem isFinite_fneg (a : F32) : isFinite (fneg a) = isFinite a := by simp [isFinite]
@[simp] theorem isNaN_fabs (a : F32) : isNaN (fabs a) = isNaN a := by simp [isNaN]
@[simp] theorem fval_fneg (a : F32) : fval (fneg a) = -fval a := by
  unfold fval; cases h : fsign a <;> simp [h]

/-! The order. -/

theorem flt_iff (a b : F32) :
    flt a b = true ↔ isNaN a = false ∧ isNaN b = false ∧ fkey a < fkey b := by
  simp [flt, and_assoc]

theorem fle_iff (a b : F32) :
    fle a b = true ↔ isNaN a = false ∧ isNaN b = false ∧ fkey a ≤ fkey b := by
  simp [fle, and_assoc]

/-- A comparison with a NaN is false (R8). -/
theorem flt_nan_left {a : F32} (h : isNaN a = true) (b : F32) : flt a b = false := by simp [flt, h]
theorem flt_nan_right {b : F32} (a : F32) (h : isNaN b = true) : flt a b = false := by simp [flt, h]
theorem fle_nan_left {a : F32} (h : isNaN a = true) (b : F32) : fle a b = false := by simp [fle, h]
theorem fle_nan_right {b : F32} (a : F32) (h : isNaN b = true) : fle a b = false := by simp [fle, h]

theorem fle_refl {a : F32} (h : isNaN a = false) : fle a a = true := (fle_iff a a).2 ⟨h, h, le_rfl⟩

theorem fle_trans {a b c : F32} (h1 : fle a b = true) (h2 : fle b c = true) : fle a c = true := by
  rw [fle_iff] at h1 h2 ⊢
  exact ⟨h1.1, h2.2.1, h1.2.2.trans h2.2.2⟩

theorem flt_of_fle_of_flt {a b c : F32} (h1 : fle a b = true) (h2 : flt b c = true) :
    flt a c = true := by
  rw [fle_iff] at h1; rw [flt_iff] at h2 ⊢
  exact ⟨h1.1, h2.2.1, lt_of_le_of_lt h1.2.2 h2.2.2⟩

theorem fle_of_flt {a b : F32} (h : flt a b = true) : fle a b = true := by
  rw [flt_iff] at h; exact (fle_iff a b).2 ⟨h.1, h.2.1, h.2.2.le⟩

/-- Of two values that are not NaN, one is below the other or they are in order. -/
theorem flt_eq_not_fle {a b : F32} (ha : isNaN a = false) (hb : isNaN b = false) :
    flt a b = !fle b a := by
  simp only [flt, fle, ha, hb, Bool.not_false, Bool.true_and]
  rw [← decide_not]
  congr 1
  simp

/-- The order of two values that are not NaN is the order of their exact values. -/
theorem fkey_le_iff {a b : F32} (ha : isNaN a = false) (hb : isNaN b = false) :
    fkey a ≤ fkey b ↔ fval a ≤ fval b := by
  have ha' : fmag a ≤ infMag := by simpa [isNaN] using ha
  have hb' : fmag b ≤ infMag := by simpa [isNaN] using hb
  have h1 := fun h : fmag a < fmag b => unitsOf_lt ha' h hb'
  have h2 := fun h : fmag b < fmag a => unitsOf_lt hb' h ha'
  have z : ∀ m : Nat, unitsOf 0 ≤ unitsOf m := fun m => by simp [unitsOf]
  have z0 : unitsOf 0 = 0 := by simp [unitsOf]
  have za := fun h : 0 < fmag a => unitsOf_lt (by omega) h ha'
  have zb := fun h : 0 < fmag b => unitsOf_lt (by omega) h hb'
  unfold fkey fval
  rcases Nat.lt_trichotomy (fmag a) (fmag b) with h | h | h
  · have h3 := h1 h
    have h4 := zb (by omega)
    cases fsign a <;> cases fsign b <;> simp <;> omega
  · rw [h]
    rcases Nat.eq_zero_or_pos (fmag b) with h0 | h0
    · rw [h0, z0]
    · have := zb h0
      cases fsign a <;> cases fsign b <;> simp <;> omega
  · have := h2 h
    have := za (by omega)
    cases fsign a <;> cases fsign b <;> simp <;> omega

theorem fkey_lt_iff {a b : F32} (ha : isNaN a = false) (hb : isNaN b = false) :
    fkey a < fkey b ↔ fval a < fval b := by
  have := fkey_le_iff hb ha
  omega

/-! Exact sums. -/

theorem isNaN_ofUnits (s : Bool) (z : Int) : isNaN (ofUnits s z) = false := by
  unfold ofUnits
  split
  · exact not_isNaN_fpack s (Nat.zero_le _)
  · exact not_isNaN_fpack _ (roundMag_le_infMag _ _)

/-- The signed magnitude bits of an exact sum's rounding. -/
theorem fkey_ofUnits (s : Bool) (z : Int) :
    fkey (ofUnits s z) = if z < 0 then -(roundMag z.natAbs 1 : Int) else roundMag z.natAbs 1 := by
  have hlt : ∀ n d, roundMag n d < 2 ^ 31 := fun n d =>
    lt_of_le_of_lt (roundMag_le_infMag n d) infMag_lt
  unfold ofUnits fkey
  by_cases hz : z = 0
  · subst hz
    have h0 : roundMag 0 1 = 0 := by decide
    have hs : fsign (fpack s 0) = s := fsign_fpack s (by omega)
    have hm : fmag (fpack s 0) = 0 := fmag_fpack s (by omega)
    simp [hm, h0]
  · rw [if_neg hz, fsign_fpack _ (hlt _ _), fmag_fpack _ (hlt _ _)]
    by_cases hn : z < 0 <;> simp [hn]

theorem fkey_ofUnits_mono {s s' : Bool} {z z' : Int} (h : z ≤ z') :
    fkey (ofUnits s z) ≤ fkey (ofUnits s' z') := by
  rw [fkey_ofUnits, fkey_ofUnits]
  by_cases h1 : z < 0 <;> by_cases h2 : z' < 0 <;> simp only [h1, h2, if_true, if_false]
  · have := roundMag_mono (n := z'.natAbs) (d := 1) (n' := z.natAbs) (d' := 1)
      (by omega) (by omega) (by omega)
    omega
  · omega
  · omega
  · have := roundMag_mono (n := z.natAbs) (d := 1) (n' := z'.natAbs) (d' := 1)
      (by omega) (by omega) (by omega)
    omega

theorem fval_natAbs (a : F32) : (fval a).natAbs = unitsOf (fmag a) := by
  unfold fval; split <;> simp

theorem unitsOf_eq_zero {m : Nat} (h : unitsOf m = 0) : m = 0 := by
  unfold unitsOf at h
  split at h
  · exact h
  · have h1 : 0 < 2 ^ (m / 2 ^ 23 - 1) := Nat.pow_pos (by omega)
    have h2 : 0 < (2 ^ 23 + m % 2 ^ 23) * 2 ^ (m / 2 ^ 23 - 1) := Nat.mul_pos (by omega) h1
    omega

theorem fval_eq_zero {a : F32} : fval a = 0 ↔ isZero a = true := by
  have h := fval_natAbs a
  simp only [isZero, decide_eq_true_eq]
  constructor
  · intro h0; rw [h0] at h; exact unitsOf_eq_zero h.symm
  · intro h0; rw [h0] at h; simp [unitsOf] at h; exact h

/-- A value's units round to the value. -/
theorem ofUnits_fval (s : Bool) {a : F32} (hn : isNaN a = false) (hz : isZero a = false) :
    ofUnits s (fval a) = a := by
  have hm : fmag a ≤ infMag := by simpa [isNaN] using hn
  have h0 : fval a ≠ 0 := fun h => by rw [fval_eq_zero, hz] at h; cases h
  have hu := roundMag_unitsOf hm (c := 1) (by omega)
  rw [Nat.mul_one] at hu
  unfold ofUnits
  rw [if_neg h0, fval_natAbs, hu]
  have hpos : 0 < unitsOf (fmag a) := by
    rw [← fval_natAbs]; omega
  have hs : decide (fval a < 0) = fsign a := by
    unfold fval
    cases fsign a <;> simp
    exact hpos
  rw [hs, fpack_fsign_fmag]

theorem fkey_ofUnits_fval (s : Bool) {a : F32} (hn : isNaN a = false) :
    fkey (ofUnits s (fval a)) = fkey a := by
  by_cases hz : isZero a = true
  · have h0 : fmag a = 0 := by simpa [isZero] using hz
    have hk : fkey a = 0 := by unfold fkey; simp [h0]
    have hr : roundMag 0 1 = 0 := by decide
    rw [fval_eq_zero.2 hz, fkey_ofUnits, hk]
    simp [hr]
  · rw [ofUnits_fval s hn (by simpa using hz)]

/-! Exact results. -/

/-- Whole units with a significand of at most 24 bits are a binary32 magnitude. -/
theorem exists_fmag (s e : Nat) (hs : s < 2 ^ 24) (he : e ≤ 253) :
    ∃ m, m < infMag ∧ unitsOf m = s * 2 ^ e := by
  induction e generalizing s with
  | zero => exact ⟨s, by unfold infMag; omega, by rw [unitsOf_small hs]; simp⟩
  | succ e ih =>
    by_cases h : s < 2 ^ 23
    · obtain ⟨m, h1, h2⟩ := ih (2 * s) (by omega) (by omega)
      exact ⟨m, h1, by rw [h2]; ring⟩
    · refine ⟨(e + 2) * 2 ^ 23 + (s - 2 ^ 23), by unfold infMag; omega, ?_⟩
      have h1 : ((e + 2) * 2 ^ 23 + (s - 2 ^ 23)) / 2 ^ 23 = e + 2 := by omega
      have h2 : ((e + 2) * 2 ^ 23 + (s - 2 ^ 23)) % 2 ^ 23 = s - 2 ^ 23 := by omega
      unfold unitsOf
      rw [h1, h2, if_neg (by omega), show 2 ^ 23 + (s - 2 ^ 23) = s by omega]
      rfl

/-- A sum of units that is a binary32 magnitude is not rounded. -/
theorem ofUnits_exact (sg : Bool) (z : Int) (h : ∃ m, m < infMag ∧ unitsOf m = z.natAbs) :
    fval (ofUnits sg z) = z ∧ isFinite (ofUnits sg z) = true := by
  obtain ⟨m, hm, hu⟩ := h
  have hlt := infMag_lt
  have hr : roundMag z.natAbs 1 = m := by
    rw [← hu]; have := roundMag_unitsOf hm.le (c := 1) (by omega); rwa [Nat.mul_one] at this
  unfold ofUnits
  by_cases hz : z = 0
  · subst hz; cases sg <;> decide
  · rw [if_neg hz, hr]
    constructor
    · unfold fval
      rw [fsign_fpack _ (by omega), fmag_fpack _ (by omega), hu]
      by_cases hn : z < 0
      · rw [if_pos (by simpa using hn)]; omega
      · rw [if_neg (by simpa using hn)]; omega
    · have := fmag_fpack (decide (z < 0)) (show m < 2 ^ 31 by omega)
      simp [isFinite, this, hm]

/-- What `v >= +0.0` says (R8). -/
theorem fge_zero {v : F32} (h : fge v f0 = true) : isNaN v = false ∧ 0 ≤ fval v := by
  have h' : fle f0 v = true := h
  rw [fle_iff] at h'
  have := (fkey_le_iff h'.1 h'.2.1).1 h'.2.2
  exact ⟨h'.2.1, by rwa [show fval f0 = 0 by decide] at this⟩

/-- `FloorSatU32` of a value that is not negative (R8). -/
theorem floorSatU32_nonneg {v : F32} (h : fge v f0 = true) :
    floorSatU32 v = min (unitsOf (fmag v) / 2 ^ 149) (2 ^ 32 - 1) := by
  have hn := fge_zero h
  unfold floorSatU32
  rw [if_neg]
  rintro (h1 | h1)
  · rw [hn.1] at h1; cases h1
  · rw [flt_iff] at h1
    have := (fkey_lt_iff h1.1 h1.2.1).1 h1.2.2
    rw [show fval f0 = 0 by decide] at this
    omega

/-! Addition and subtraction. -/

theorem fadd_finite (q : Nat) {a b : F32} (ha : isFinite a = true) (hb : isFinite b = true) :
    fadd q a b = ofUnits (fsign a && fsign b) (fval a + fval b) := by
  rw [isFinite_iff] at ha hb
  simp [fadd, ha.1, ha.2, hb.1, hb.2]

theorem fsub_finite (q : Nat) {a b : F32} (ha : isFinite a = true) (hb : isFinite b = true) :
    fsub q a b = ofUnits (fsign a && !fsign b) (fval a - fval b) := by
  rw [fsub, fadd_finite q ha (by simpa using hb)]
  simp [sub_eq_add_neg]

/-- A finite sum at most a value rounds to at most it. -/
theorem fadd_le (q : Nat) {a b c : F32} (ha : isFinite a = true) (hb : isFinite b = true)
    (hc : isNaN c = false) (h : fval a + fval b ≤ fval c) : fle (fadd q a b) c = true := by
  rw [fadd_finite q ha hb, fle_iff]
  exact ⟨isNaN_ofUnits _ _, hc,
    (fkey_ofUnits_mono (s' := false) h).trans (fkey_ofUnits_fval false hc).le⟩

/-- A finite sum at least a value rounds to at least it. -/
theorem le_fadd (q : Nat) {a b c : F32} (ha : isFinite a = true) (hb : isFinite b = true)
    (hc : isNaN c = false) (h : fval c ≤ fval a + fval b) : fle c (fadd q a b) = true := by
  rw [fadd_finite q ha hb, fle_iff]
  exact ⟨hc, isNaN_ofUnits _ _,
    (fkey_ofUnits_fval false hc).ge.trans (fkey_ofUnits_mono h)⟩

/-- Adding a zero changes no value but a zero. -/
theorem fadd_zero (q : Nat) {a z : F32} (ha : isNaN a = false) (ha0 : isZero a = false)
    (hz : isZero z = true) : fadd q a z = a := by
  have hm : fmag z = 0 := by simpa [isZero] using hz
  have hz1 : isNaN z = false := by simp [isNaN, hm]
  have hz2 : isInf z = false := by simp [isInf, hm, infMag]
  by_cases hi : isInf a = true
  · simp [fadd, ha, hz1, hz2, hi]
  · have hf : isFinite a = true := (isFinite_iff a).2 ⟨ha, by simpa using hi⟩
    rw [fadd_finite q hf ((isFinite_iff z).2 ⟨hz1, hz2⟩), fval_eq_zero.2 hz, add_zero,
      ofUnits_fval _ ha ha0]

/-- The sum of two zeros is a zero. -/
theorem fadd_zeros (q : Nat) {a z : F32} (ha : isZero a = true) (hz : isZero z = true) :
    isZero (fadd q a z) = true := by
  have fin : ∀ {x : F32}, isZero x = true → isFinite x = true := fun {x} h => by
    have hm : fmag x = 0 := by simpa [isZero] using h
    simp [isFinite, hm, infMag]
  rw [fadd_finite q (fin ha) (fin hz), fval_eq_zero.2 ha, fval_eq_zero.2 hz]
  simp [ofUnits, isZero, fmag_fpack]

/-! Multiplication and division. -/

theorem fmul_finite (q : Nat) {a b : F32} (ha : isFinite a = true) (hb : isFinite b = true) :
    fmul q a b = fpack (fsign a != fsign b)
      (roundMag (unitsOf (fmag a) * unitsOf (fmag b)) (2 ^ 149)) := by
  rw [isFinite_iff] at ha hb
  simp [fmul, ha.1, ha.2, hb.1, hb.2]

theorem fdiv_finite (q : Nat) {a b : F32} (ha : isFinite a = true) (hb : isFinite b = true)
    (hb0 : isZero b = false) :
    fdiv q a b = fpack (fsign a != fsign b)
      (roundMag (unitsOf (fmag a) * 2 ^ 149) (unitsOf (fmag b))) := by
  rw [isFinite_iff] at ha hb
  simp [fdiv, ha.1, ha.2, hb.1, hb.2, hb0]

theorem roundMag_lt (n d : Nat) : roundMag n d < 2 ^ 31 :=
  lt_of_le_of_lt (roundMag_le_infMag n d) infMag_lt

theorem unitsOf_one : unitsOf (fmag f1) = 2 ^ 149 := by decide

/-- Multiplying by 1.0 changes nothing but a NaN. -/
theorem fmul_one (q : Nat) {a : F32} (ha : isNaN a = false) : fmul q a f1 = a := by
  have h1 : isNaN f1 = false := by decide
  have h2 : isInf f1 = false := by decide
  have h3 : isZero f1 = false := by decide
  have h4 : fsign f1 = false := by decide
  have hm : fmag a ≤ infMag := by simpa [isNaN] using ha
  by_cases hi : isInf a = true
  · have hz : isZero a = false := by
      simp only [isInf, decide_eq_true_eq] at hi
      simp [isZero, hi, infMag]
    have hm' : fmag a = infMag := by simpa [isInf] using hi
    rw [fmul]
    simp only [ha, h1, h2, h3, h4, hi, hz, Bool.false_eq_true, or_self, or_false, if_false, if_true,
      Bool.bne_false]
    rw [← hm', fpack_fsign_fmag]
  · have hf : isFinite a = true := (isFinite_iff a).2 ⟨ha, by simpa using hi⟩
    rw [fmul_finite q hf (by decide), unitsOf_one, roundMag_unitsOf hm (by positivity), h4,
      Bool.bne_false, fpack_fsign_fmag]

/-- A finite value times a zero is a zero. -/
theorem fmul_zero (q : Nat) {a z : F32} (ha : isFinite a = true) (hz : isZero z = true) :
    isZero (fmul q a z) = true := by
  have hm : fmag z = 0 := by simpa [isZero] using hz
  have hf : isFinite z = true := by simp [isFinite, hm, infMag]
  have h0 : roundMag 0 (2 ^ 149) = 0 := by decide +kernel
  rw [fmul_finite q ha hf, hm, show unitsOf 0 = 0 by decide, Nat.mul_zero, h0]
  simp [isZero, fmag_fpack]

/-! `SinFn` (41_lfo_engine.md R102). -/

/-- (b) For a finite argument the result is in `[-1, 1]`. -/
theorem sinFn_range (k : SinKind) {a : F32} (ha : isFinite a = true) :
    fle fNeg1 (sinFn k a) = true ∧ fle (sinFn k a) f1 = true := by
  unfold sinFn
  rw [if_pos ha]
  cases k
  · obtain ⟨m, hm⟩ : ∃ m, m = min (roundMag ((sinFixed (reduceTwoPi (unitsOf (fmag a)))).natAbs
      * 2 ^ 149) (2 ^ sinBits)) (fmag f1) := ⟨_, rfl⟩
    have hle : m ≤ 0x3F800000 := by rw [hm]; exact Nat.min_le_right _ _
    have hlt : m < 2 ^ 31 := by omega
    have hn : ∀ s, isNaN (fpack s m) = false := fun s =>
      not_isNaN_fpack s (by unfold infMag; omega)
    have k1 : fkey f1 = 0x3F800000 := by decide
    have k2 : fkey fNeg1 = -0x3F800000 := by decide
    simp only [sinRounded]
    rw [← hm]
    constructor
    · rw [fle_iff]
      refine ⟨by decide, hn _, ?_⟩
      rw [k2]; unfold fkey; rw [fmag_fpack _ hlt]; split <;> omega
    · rw [fle_iff]
      refine ⟨hn _, by decide, ?_⟩
      rw [k1]; unfold fkey; rw [fmag_fpack _ hlt]; split <;> omega
  · have h0 : fle fNeg1 f0 = true ∧ fle f0 f1 = true := by decide
    simp only [sinConforming]
    split
    · exact h0
    · split
      · rename_i h; simpa using h
      · exact h0

end Sys2Proof.Machine
end

