-- ==== Sys2Proof/Laws/State.lean ====
section
/-! SUPPORT. One lemma for each field and each named update, so that no later proof unfolds a record
update. -/

namespace Sys2Proof.Machine

/-! `emit` -/
@[simp] theorem emit_params (a b : F32) (s : State) : (emit a b s).params = s.params := rfl
@[simp] theorem emit_port (a b : F32) (s : State) : (emit a b s).port = s.port := rfl
@[simp] theorem emit_out (a b : F32) (s : State) : (emit a b s).out = s.out ++ [a ++ b] := rfl
@[simp] theorem emit_free (a b : F32) (s : State) : (emit a b s).free = s.free := rfl
@[simp] theorem emit_db (a b : F32) (s : State) : (emit a b s).db = s.db := rfl
@[simp] theorem emit_lfo (a b : F32) (s : State) : (emit a b s).lfo = s.lfo := rfl
@[simp] theorem emit_net (a b : F32) (s : State) : (emit a b s).net = s.net := rfl

/-! `spendFree` -/
@[simp] theorem spendFree_params (s : State) : (spendFree s).params = s.params := rfl
@[simp] theorem spendFree_port (s : State) : (spendFree s).port = s.port := rfl
@[simp] theorem spendFree_out (s : State) : (spendFree s).out = s.out := rfl
@[simp] theorem spendFree_free (s : State) : (spendFree s).free = s.free + 64 := rfl
@[simp] theorem spendFree_db (s : State) : (spendFree s).db = s.db := rfl
@[simp] theorem spendFree_lfo (s : State) : (spendFree s).lfo = s.lfo := rfl
@[simp] theorem spendFree_net (s : State) : (spendFree s).net = s.net := rfl

/-! `offer`, `hardReset`, `State.withFetchWord` -/
@[simp] theorem offer_port (s : State) (w : Cmd) : (offer s w).port = s.port ++ [w] := rfl
@[simp] theorem offer_params (s : State) (w : Cmd) : (offer s w).params = s.params := rfl
@[simp] theorem offer_out (s : State) (w : Cmd) : (offer s w).out = s.out := rfl
@[simp] theorem offer_free (s : State) (w : Cmd) : (offer s w).free = s.free := rfl
@[simp] theorem offer_db (s : State) (w : Cmd) : (offer s w).db = s.db := rfl
@[simp] theorem offer_lfo (s : State) (w : Cmd) : (offer s w).lfo = s.lfo := rfl
@[simp] theorem offer_net (s : State) (w : Cmd) : (offer s w).net = s.net := rfl
@[simp] theorem hardReset_params (s : State) : (hardReset s).params = s.params := rfl
@[simp] theorem hardReset_port (s : State) : (hardReset s).port = [] := rfl
@[simp] theorem hardReset_out (s : State) : (hardReset s).out = s.out := rfl
@[simp] theorem hardReset_free (s : State) : (hardReset s).free = s.free := rfl
@[simp] theorem hardReset_db (s : State) : (hardReset s).db = (State.resetWith s.params).db := rfl
@[simp] theorem hardReset_lfo (s : State) : (hardReset s).lfo = (State.resetWith s.params).lfo := rfl
@[simp] theorem hardReset_net (s : State) : (hardReset s).net = (State.resetWith s.params).net := rfl
@[simp] theorem withFetchWord_port (s : State) (k w : Nat) :
    (s.withFetchWord k w).port = BitVec.ofNat 160 (w % 2 ^ k) :: s.port := rfl
@[simp] theorem withFetchWord_db (s : State) (k w : Nat) : (s.withFetchWord k w).db = s.db := rfl
@[simp] theorem withFetchWord_lfo (s : State) (k w : Nat) : (s.withFetchWord k w).lfo = s.lfo := rfl
@[simp] theorem withFetchWord_net (s : State) (k w : Nat) : (s.withFetchWord k w).net = s.net := rfl

/-! Pairs and quadruples -/
@[simp] theorem Pair.get_a {α : Type} (p : Pair α) : p.get .a = p.a := rfl
@[simp] theorem Pair.get_b {α : Type} (p : Pair α) : p.get .b = p.b := rfl
@[simp] theorem Pair.get_set_same {α : Type} (p : Pair α) (x : Node) (v : α) :
    (p.set x v).get x = v := by cases x <;> rfl
theorem Pair.get_set_other {α : Type} (p : Pair α) {x y : Node} (v : α) (h : x ≠ y) :
    (p.set x v).get y = p.get y := by cases x <;> cases y <;> first | rfl | exact absurd rfl h
@[simp] theorem Pair.set_a {α : Type} (p : Pair α) (v : α) : p.set .a v = ⟨v, p.b⟩ := rfl
@[simp] theorem Pair.set_b {α : Type} (p : Pair α) (v : α) : p.set .b v = ⟨p.a, v⟩ := rfl
@[simp] theorem Quad.get_set_same {α : Type} (t : Quad α) (r : RampId) (v : α) :
    (t.set r v).get r = v := by cases r <;> rfl
theorem Quad.get_set_other {α : Type} (t : Quad α) {r r' : RampId} (v : α) (h : r ≠ r') :
    (t.set r v).get r' = t.get r' := by
  cases r <;> cases r' <;> first | rfl | exact absurd rfl h
@[simp] theorem Node.index_a : Node.a.index = 0 := rfl
@[simp] theorem Node.index_b : Node.b.index = 1 := rfl

/-! `setTarget` -/
@[simp] theorem setTarget_ready (r : RampId) (v : F32) (f : Bool) (m : Net) :
    (setTarget r v f m).ready = m.ready := rfl
@[simp] theorem setTarget_fb (r : RampId) (v : F32) (f : Bool) (m : Net) :
    (setTarget r v f m).fb = m.fb := rfl
@[simp] theorem setTarget_fs (r : RampId) (v : F32) (f : Bool) (m : Net) :
    (setTarget r v f m).fs = m.fs := rfl
@[simp] theorem setTarget_tgt (r : RampId) (v : F32) (f : Bool) (m : Net) :
    (setTarget r v f m).tgt = m.tgt.set r v := rfl
@[simp] theorem setTarget_ramp (r : RampId) (v : F32) (f : Bool) (m : Net) :
    (setTarget r v f m).ramp = m.ramp.set r (rampSetTarget v f (m.ramp.get r)) := rfl

/-! The operations of the Delay Buffer Engine -/
@[simp] theorem dbClear_ready (b : Dbe) : (dbClear b).ready = b.ready := rfl
@[simp] theorem dbClear_len (b : Dbe) : (dbClear b).len = b.len := rfl
@[simp] theorem dbClear_alloc (b : Dbe) : (dbClear b).alloc = b.alloc := rfl
@[simp] theorem dbClear_w (b : Dbe) : (dbClear b).w = b.w := rfl
@[simp] theorem dbClear_d (b : Dbe) : (dbClear b).d = b.d := rfl
@[simp] theorem dbClear_buf (b : Dbe) :
    (dbClear b).buf = memZero b.buf b.alloc.toNat b.len.toNat := rfl
@[simp] theorem dbSetDelay_ready (x y : Int) (b : Dbe) : (dbSetDelay x y b).ready = b.ready := rfl
@[simp] theorem dbSetDelay_len (x y : Int) (b : Dbe) : (dbSetDelay x y b).len = b.len := rfl
@[simp] theorem dbSetDelay_alloc (x y : Int) (b : Dbe) : (dbSetDelay x y b).alloc = b.alloc := rfl
@[simp] theorem dbSetDelay_w (x y : Int) (b : Dbe) : (dbSetDelay x y b).w = b.w := rfl
@[simp] theorem dbSetDelay_d (x y : Int) (b : Dbe) :
    (dbSetDelay x y b).d = ⟨delayOffset b.len x, delayOffset b.len y⟩ := rfl
@[simp] theorem dbSetDelay_buf (x y : Int) (b : Dbe) : (dbSetDelay x y b).buf = b.buf := rfl
@[simp] theorem dbStore_ready (b : Dbe) (x : Node) (v : F32) : (dbStore b x v).ready = b.ready := rfl
@[simp] theorem dbStore_len (b : Dbe) (x : Node) (v : F32) : (dbStore b x v).len = b.len := rfl
@[simp] theorem dbStore_alloc (b : Dbe) (x : Node) (v : F32) : (dbStore b x v).alloc = b.alloc := rfl
@[simp] theorem dbStore_d (b : Dbe) (x : Node) (v : F32) : (dbStore b x v).d = b.d := rfl
@[simp] theorem dbStore_buf (b : Dbe) (x : Node) (v : F32) :
    (dbStore b x v).buf = memWrite b.buf x (b.w.get x).toNat v := rfl
@[simp] theorem dbStore_w (b : Dbe) (x : Node) (v : F32) :
    (dbStore b x v).w =
      b.w.set x (BitVec.ofNat 32 (modLen ((b.w.get x).toNat + 1) b.len.toNat)) := rfl
@[simp] theorem dbPrepare_ready (p : Params) (m n : Nat) (b : Dbe) :
    (dbPrepare p m n b).ready = true := rfl
@[simp] theorem dbPrepare_len (p : Params) (m n : Nat) (b : Dbe) :
    (dbPrepare p m n b).len = BitVec.ofNat 32 (clampN m 2 p.maxLen) := rfl
@[simp] theorem dbPrepare_alloc (p : Params) (m n : Nat) (b : Dbe) :
    (dbPrepare p m n b).alloc = BitVec.ofNat 8 (min n 2) := rfl
@[simp] theorem dbPrepare_w (p : Params) (m n : Nat) (b : Dbe) :
    (dbPrepare p m n b).w = ⟨0, 0⟩ := rfl
@[simp] theorem dbPrepare_d (p : Params) (m n : Nat) (b : Dbe) :
    (dbPrepare p m n b).d = ⟨1, 1⟩ := rfl
@[simp] theorem dbPrepare_buf (p : Params) (m n : Nat) (b : Dbe) :
    (dbPrepare p m n b).buf = memZero b.buf (min n 2) (clampN m 2 p.maxLen) := rfl

/-! `lfoAdvance` -/
@[simp] theorem lfoAdvance_inc (q : Nat) (l : Lfo) : (lfoAdvance q l).inc = l.inc := rfl
@[simp] theorem lfoAdvance_rate (q : Nat) (l : Lfo) : (lfoAdvance q l).rate = l.rate := rfl
@[simp] theorem lfoAdvance_typ (q : Nat) (l : Lfo) : (lfoAdvance q l).typ = l.typ := rfl
@[simp] theorem lfoAdvance_ph (q : Nat) (l : Lfo) :
    (lfoAdvance q l).ph = ⟨advancePhase q l.ph.a l.inc, advancePhase (q + 2) l.ph.b l.inc⟩ := rfl

end Sys2Proof.Machine
end

