-- ==== Sys2Proof/Safety.lean ====
section
/-! DEFINITION. What a legal state is and the terms the claims use: the invariants of 10_state.md
R14, R18, R20, R22, R23, R26 and of the ramp units (R121, R158), the content law of 20_memory.md
R51, and successive ramp steps. -/

namespace Sys2Proof.Machine

/-- The ranges of the model arguments (00_scope.md R6). -/
abbrev ParamsLegal (p : Params) : Prop :=
  2 ≤ p.maxLen ∧ p.maxLen ≤ 2 ^ 31 ∧ 1 ≤ p.baseDelay ∧ fgt p.rampMs f0 = true

/-- Every listed word of a bank has an index below `n`. -/
def bankBelow (n : Nat) (m : Bank) : Bool := m.all (fun c => decide (c.1 < n))

/-- The memory is in canonical form and lists no word the banks do not have (20_memory.md R40). -/
abbrev MemOk (p : Params) (m : Memory) : Prop :=
  Memory.wf m = true ∧ bankBelow p.maxLen m.a = true ∧ bankBelow p.maxLen m.b = true

/-- The registers part of the DBE invariant R18. -/
abbrev DbeRegsOk (p : Params) (b : Dbe) : Prop :=
  2 ≤ b.len.toNat ∧ b.len.toNat ≤ p.maxLen ∧ b.alloc.toNat ≤ 2 ∧
  b.w.a.toNat < b.len.toNat ∧ b.w.b.toNat < b.len.toNat ∧
  1 ≤ b.d.a.toNat ∧ b.d.a.toNat < b.len.toNat ∧
  1 ≤ b.d.b.toNat ∧ b.d.b.toNat < b.len.toNat

/-- A gain target is in `[-1, 1]` (R10, R138). -/
abbrev GainOk (g : F32) : Prop := fle fNeg1 g = true ∧ fle g f1 = true

/-- A `RefRamp` that a `prepare` has reached has `N >= 1` (R158). -/
def rampPrepared : RampUnit → Bool
  | .ref r => decide (1 ≤ r.len.toNat)
  | .contract _ => true

/-- Each of the four ramp units is prepared. -/
abbrev RampsOk (r : Quad RampUnit) : Prop :=
  rampPrepared r.ofs = true ∧ rampPrepared r.dep = true ∧
  rampPrepared r.ga = true ∧ rampPrepared r.gb = true

/-- The invariant of the machine: legal arguments, memory in canonical form and inside the banks, the
DBE invariant while `dbReady` (R18), `fnReady` implies `dbReady` (R14), the rate not negative (R22),
both gain targets in `[-1, 1]` (R26), the ramp units prepared while `fnReady` (42_feedback_network.md
R121, 43_ramp_port.md R158). -/
abbrev State.Inv (s : State) : Prop :=
  ParamsLegal s.params ∧ MemOk s.params s.db.buf ∧
  (s.db.ready = true → DbeRegsOk s.params s.db) ∧
  (s.net.ready = true → s.db.ready = true) ∧
  fge s.lfo.rate f0 = true ∧ GainOk s.net.tgt.ga ∧ GainOk s.net.tgt.gb ∧
  (s.net.ready = true → RampsOk s.net.ramp)

/-- A phase or increment is in `[0, TWO_PI)`, or a NaN that a non-finite or zero sample rate gave
(R20, 41_lfo_engine.md R106). -/
abbrev AngleOk (a : F32) : Prop := isNaN a = true ∨ (fge a f0 = true ∧ flt a twoPi = true)

/-- The LFO engine's invariant (R20, R22). -/
abbrev LfoOk (l : Lfo) : Prop :=
  AngleOk l.ph.a ∧ AngleOk l.ph.b ∧ AngleOk l.inc ∧ fge l.rate f0 = true

/-- The delay line of node `x` holds the inputs `hist`, newest first, and +0.0 before them
(20_memory.md R51). -/
def ContentLaw (b : Dbe) (x : Node) (hist : List F32) : Prop :=
  ∀ j : Nat, 1 ≤ j → j ≤ b.len.toNat →
    memRead b.buf x (modLen ((b.w.get x).toNat - j) b.len.toNat) = hist.getD (j - 1) f0

/-- The history of node `x` after a command that answers a next state (20_memory.md R51): prepare and
clear empty it, a processed node's input is put in front. -/
def historyAfter (i : Instr) (s : State) (x : Node) (hist : List F32) : List F32 :=
  match i with
  | .dbprep _ _ => []
  | .dbclr => []
  | .dbsetd _ _ => hist
  | .dbproc n inA inB _ _ =>
    if isProcessed s.db n.toNat x then (Pair.mk inA inB).get x :: hist else hist
  | .prepare _ _ _ => []
  | .clear => []
  | .tick n xA xB =>
    if isProcessed s.db n.toNat x then (combinedInput xA xB s).get x :: hist else hist
  | .setofs _ _ => hist
  | .setdep _ _ => hist
  | .setgain _ _ _ => hist
  | .setrate _ => hist
  | .settype _ => hist

/-- A packet's lane: node A in the upper word (30_encoding.md R75). -/
def lane (p : Packet) : Node → F32
  | .a => p.extractLsb' 32 32
  | .b => p.extractLsb' 0 32

/-- `m` successive `next()` calls on a ramp unit; call number `j` uses the free values from `q j`. -/
def rampSteps (q : Nat → Nat) : Nat → RampUnit → RampUnit
  | 0, u => u
  | m + 1, u => rampNext (q m) (rampSteps q m u)

/-- How many `next()` calls a glide takes at most: `N` for `RefRamp` (R162), the configured duration
and one more for any other ramp (R155 (a)). -/
def glideBound : RampUnit → Nat
  | .ref r => r.len.toNat
  | .contract r => r.dur + 1

end Sys2Proof.Machine
end

