-- ==== Sys2Proof/Laws/Memory.lean ====
section
/-! SUPPORT. The memory laws: read after write and after zero-fill, and that every memory operation
keeps the canonical form and stays inside the banks (20_memory.md R42, R43, R49). -/

namespace Sys2Proof.Machine

theorem bankRead_of_lt (m : Bank) (i : Nat) (h : ∀ e ∈ m, i < e.1) : bankRead m i = unlisted := by
  induction m with
  | nil => rfl
  | cons c t ih =>
    have hc : i < c.1 := h c (by simp)
    simp [bankRead, show c.1 ≠ i by omega, ih (fun e he => h e (by simp [he]))]

theorem bankWf_cons {c : Nat × F32} {t : Bank} (h : bankWf (c :: t) = true) :
    c.2 ≠ unlisted ∧ (∀ e ∈ t, c.1 < e.1) ∧ bankWf t = true := by
  simpa [bankWf, and_assoc] using h

theorem bankWf_of {c : Nat × F32} {t : Bank} (h0 : c.2 ≠ unlisted) (h1 : ∀ e ∈ t, c.1 < e.1)
    (h2 : bankWf t = true) : bankWf (c :: t) = true := by
  simp [bankWf, h0, h2]; exact fun a b hab => h1 (a, b) hab

theorem bankRead_bankWrite (m : Bank) (hm : bankWf m = true) (i : Nat) (v : F32) (j : Nat) :
    bankRead (bankWrite m i v) j = if j = i then v else bankRead m j := by
  induction m with
  | nil =>
    by_cases hv : v = unlisted <;> by_cases hj : i = j <;>
      simp [bankWrite, bankRead, hv, hj, eq_comm]
  | cons c t ih =>
    obtain ⟨-, h1, h2⟩ := bankWf_cons hm
    by_cases hc : c.1 < i
    · by_cases hj : c.1 = j
      · subst hj; simp [bankWrite, hc, bankRead, show c.1 ≠ i by omega]
      · simp [bankWrite, hc, bankRead, hj, ih h2]
    · have htail : ∀ e ∈ t, i < e.1 := fun e he => by have := h1 e he; omega
      by_cases hci : c.1 = i
      · by_cases hv : v = unlisted
        · by_cases hj : j = i
          · subst hj; simp [bankWrite, hci, hv, bankRead_of_lt t j htail]
          · simp [bankWrite, hci, hv, bankRead, hj, show i ≠ j from Ne.symm hj]
        · by_cases hj : j = i
          · subst hj; simp [bankWrite, hci, hv, bankRead]
          · simp [bankWrite, hci, hv, bankRead, hj, show i ≠ j from Ne.symm hj]
      · have hall : ∀ e ∈ c :: t, i < e.1 := fun e he => by
          rcases List.mem_cons.mp he with rfl | he
          · omega
          · exact htail e he
        by_cases hv : v = unlisted
        · by_cases hj : j = i
          · subst hj; simp [bankWrite, hc, hci, hv, bankRead_of_lt _ j hall]
          · simp [bankWrite, hc, hci, hv, hj]
        · by_cases hj : j = i
          · subst hj; simp [bankWrite, hc, hci, hv, bankRead]
          · simp [bankWrite, hc, hci, hv, bankRead, hj, show i ≠ j from Ne.symm hj]

theorem bankWrite_mem (m : Bank) (i : Nat) (v : F32) (e : Nat × F32)
    (he : e ∈ bankWrite m i v) : e ∈ m ∨ e = (i, v) := by
  induction m with
  | nil =>
    by_cases hv : v = unlisted
    · simp [bankWrite, hv] at he
    · simp [bankWrite, hv] at he; exact .inr he
  | cons c t ih =>
    simp only [bankWrite] at he
    split at he
    · rcases List.mem_cons.mp he with rfl | he
      · simp
      · rcases ih he with h | h <;> simp [h]
    · split at he <;> split at he <;> simp at he ⊢ <;> tauto

theorem bankWrite_wf (m : Bank) (hm : bankWf m = true) (i : Nat) (v : F32) :
    bankWf (bankWrite m i v) = true := by
  induction m with
  | nil => by_cases hv : v = unlisted <;> simp [bankWrite, bankWf, hv]
  | cons c t ih =>
    obtain ⟨h0, h1, h2⟩ := bankWf_cons hm
    by_cases hc : c.1 < i
    · simp only [bankWrite, hc, if_true]
      refine bankWf_of h0 (fun e he => ?_) (ih h2)
      rcases bankWrite_mem t i v e he with h | h
      · exact h1 e h
      · simp [h, hc]
    · have htail : ∀ e ∈ t, i < e.1 := fun e he => by have := h1 e he; omega
      by_cases hci : c.1 = i <;> by_cases hv : v = unlisted
      · simp [bankWrite, hci, hv, h2]
      · simpa [bankWrite, hci, hv] using bankWf_of (c := (i, v)) hv htail h2
      · simpa [bankWrite, hc, hci, hv] using hm
      · have : ∀ e ∈ c :: t, i < e.1 := fun e he => by
          rcases List.mem_cons.mp he with rfl | he
          · omega
          · exact htail e he
        simpa [bankWrite, hc, hci, hv] using bankWf_of (c := (i, v)) hv this hm

theorem bankWrite_below {n : Nat} (m : Bank) (hm : bankBelow n m = true) (i : Nat) (v : F32)
    (hi : i < n) : bankBelow n (bankWrite m i v) = true := by
  simp only [bankBelow, List.all_eq_true, decide_eq_true_eq] at hm ⊢
  intro e he
  rcases bankWrite_mem m i v e he with h | h
  · exact hm e h
  · simpa [h] using hi

theorem bankRead_bankZero (n : Nat) (m : Bank) (i : Nat) :
    bankRead (bankZero n m) i = if i < n then f0 else bankRead m i := by
  induction m with
  | nil => simp [bankZero, bankRead, unlisted, f0]
  | cons c t ih =>
    by_cases hc : n ≤ c.1
    · rw [show bankZero n (c :: t) = c :: bankZero n t by simp [bankZero, hc]]
      by_cases hi : c.1 = i
      · simp [bankRead, hi, show ¬ i < n by omega]
      · simp [bankRead, hi, ih]
    · rw [show bankZero n (c :: t) = bankZero n t by simp [bankZero, hc]]
      by_cases hi : c.1 = i
      · simp [ih, show i < n by omega]
      · simp [bankRead, hi, ih]

theorem bankZero_wf (n : Nat) (m : Bank) (hm : bankWf m = true) : bankWf (bankZero n m) = true := by
  induction m with
  | nil => rfl
  | cons c t ih =>
    obtain ⟨h0, h1, h2⟩ := bankWf_cons hm
    by_cases hc : n ≤ c.1
    · rw [show bankZero n (c :: t) = c :: bankZero n t by simp [bankZero, hc]]
      exact bankWf_of h0 (fun e he => h1 e (List.mem_of_mem_filter he)) (ih h2)
    · rw [show bankZero n (c :: t) = bankZero n t by simp [bankZero, hc]]
      exact ih h2

theorem bankZero_below {k : Nat} (n : Nat) (m : Bank) (hm : bankBelow k m = true) :
    bankBelow k (bankZero n m) = true := by
  simp only [bankBelow, List.all_eq_true, decide_eq_true_eq] at hm ⊢
  exact fun e he => hm e (List.mem_of_mem_filter he)

/-! The two banks. -/

theorem Memory.wf_get {m : Memory} (h : Memory.wf m = true) (c : Node) : bankWf (m.get c) = true := by
  cases c <;> simp_all [Memory.wf]

/-- `MemWrite` replaces one word and changes nothing else (R43). -/
theorem memRead_memWrite (m : Memory) (h : Memory.wf m = true) (c : Node) (i : Nat) (v : F32)
    (c' : Node) (j : Nat) :
    memRead (memWrite m c i v) c' j = if c' = c ∧ j = i then v else memRead m c' j := by
  by_cases hc : c' = c
  · subst hc
    simp [memRead, memWrite, bankRead_bankWrite _ (Memory.wf_get h c')]
  · simp [memRead, memWrite, hc, Pair.get_set_other _ _ (Ne.symm hc)]

theorem memWrite_wf (m : Memory) (h : Memory.wf m = true) (c : Node) (i : Nat) (v : F32) :
    Memory.wf (memWrite m c i v) = true := by
  cases c <;> simp_all [Memory.wf, memWrite, bankWrite_wf]

/-- The zero-fill makes the words below `len` of the banks below `alloc` +0.0 and leaves every other
word (R49). -/
theorem memRead_memZero (m : Memory) (alloc len : Nat) (c : Node) (i : Nat) :
    memRead (memZero m alloc len) c i =
      if c.index < alloc ∧ i < len then f0 else memRead m c i := by
  cases c <;> by_cases h0 : 0 < alloc <;> by_cases h1 : 1 < alloc <;>
    simp [memRead, memZero, h0, h1, bankRead_bankZero]

theorem memZero_wf (m : Memory) (h : Memory.wf m = true) (alloc len : Nat) :
    Memory.wf (memZero m alloc len) = true := by
  have ha := Memory.wf_get h .a
  have hb := Memory.wf_get h .b
  by_cases h0 : 0 < alloc <;> by_cases h1 : 1 < alloc <;>
    simp [Memory.wf, memZero, h0, h1, bankZero_wf, show bankWf m.a = true from ha,
      show bankWf m.b = true from hb]

theorem memWrite_ok {p : Params} {m : Memory} (h : MemOk p m) (c : Node) (i : Nat) (v : F32)
    (hi : i < p.maxLen) : MemOk p (memWrite m c i v) := by
  obtain ⟨h0, ha, hb⟩ := h
  refine ⟨memWrite_wf m h0 c i v, ?_⟩
  cases c
  · exact ⟨bankWrite_below m.a ha i v hi, hb⟩
  · exact ⟨ha, bankWrite_below m.b hb i v hi⟩

theorem memZero_ok {p : Params} {m : Memory} (h : MemOk p m) (alloc len : Nat) :
    MemOk p (memZero m alloc len) := by
  obtain ⟨h0, ha, hb⟩ := h
  refine ⟨memZero_wf m h0 alloc len, ?_, ?_⟩
  · by_cases h0 : 0 < alloc <;> simp [memZero, h0, ha, bankZero_below]
  · by_cases h1 : 1 < alloc <;> simp [memZero, h1, hb, bankZero_below]

/-- The reset memory is in canonical form. -/
theorem reset_memory_wf : Memory.wf State.reset.db.buf = true := rfl

end Sys2Proof.Machine
end

