-- ==== Sys2Proof/Laws/Delay.lean ====
section
/-! SUPPORT. What the operations of the Delay Buffer Engine do: the index arithmetic of 00_scope.md R7,
one node's turn and `DB.process` (40_delay_buffer.md R87, R88), the saturations of R81 and R85. -/

namespace Sys2Proof.Machine

/-! Indexes. -/

theorem modLen_lt (a : Int) {n : Nat} (h : 0 < n) : modLen a n < n := by
  have h1 := Int.emod_nonneg a (show (n : Int) ≠ 0 by omega)
  have h2 := Int.emod_lt_of_pos a (show 0 < (n : Int) by omega)
  unfold modLen
  omega

theorem modLen_cast (a : Int) {n : Nat} (h : 0 < n) : (modLen a n : Int) = a % n := by
  have h1 := Int.emod_nonneg a (show (n : Int) ≠ 0 by omega)
  unfold modLen
  omega

/-- Subtracting after reducing is reducing after subtracting. -/
theorem modLen_modLen_sub (a b : Int) {n : Nat} (h : 0 < n) :
    modLen ((modLen a n : Int) - b) n = modLen (a - b) n := by
  have : ((modLen a n : Int) - b) % n = (a - b) % n := by
    rw [modLen_cast a h, Int.emod_sub_emod]
  unfold modLen at *
  rw [this]

theorem readBase_lt (b : Dbe) (x : Node) (h : 0 < b.len.toNat) : readBase b x < b.len.toNat :=
  modLen_lt _ h

theorem readIndex_lt (b : Dbe) (x : Node) (k j : Nat) (h : 0 < b.len.toNat) :
    readIndex b x k j < b.len.toNat := modLen_lt _ h

/-- `i0` and `i1` as one reduction of `w - d - k - j` (R94). -/
theorem readIndex_eq (b : Dbe) (x : Node) (k j : Nat) (h : 0 < b.len.toNat) :
    readIndex b x k j =
      modLen ((b.w.get x).toNat - ((b.d.get x).toNat + k + j : Nat)) b.len.toNat := by
  unfold readIndex readBase
  rw [show ((modLen ((b.w.get x).toNat - (b.d.get x).toNat) b.len.toNat : Nat) : Int) - k - j =
    (modLen ((b.w.get x).toNat - (b.d.get x).toNat) b.len.toNat : Nat) - ((k : Int) + j) by ring,
    modLen_modLen_sub _ _ h]
  congr 1
  push_cast
  ring

/-! Saturations. -/

/-- `clampI(v, 1, L-1)` is a legal offset when `L >= 2` (R85). -/
theorem delayOffset_toNat (len : Word) (v : Int) (h : 2 ≤ len.toNat) :
    ((delayOffset len v).toNat : Int) = clampI v 1 ((len.toNat : Int) - 1) := by
  have := len.isLt
  unfold delayOffset clampI
  rw [BitVec.toNat_ofNat, Nat.mod_eq_of_lt] <;> omega

theorem delayOffset_range (len : Word) (v : Int) (h : 2 ≤ len.toNat) :
    1 ≤ (delayOffset len v).toNat ∧ (delayOffset len v).toNat < len.toNat := by
  have := delayOffset_toNat len v h
  unfold clampI at this
  omega

theorem dbPrepare_len_toNat (p : Params) (m n : Nat) (b : Dbe) (h : 2 ≤ p.maxLen)
    (h' : p.maxLen ≤ 2 ^ 31) : (dbPrepare p m n b).len.toNat = clampN m 2 p.maxLen := by
  rw [dbPrepare_len, BitVec.toNat_ofNat, Nat.mod_eq_of_lt]
  unfold clampN
  omega

theorem dbPrepare_alloc_toNat (p : Params) (m n : Nat) (b : Dbe) :
    (dbPrepare p m n b).alloc.toNat = min n 2 := by
  rw [dbPrepare_alloc, BitVec.toNat_ofNat, Nat.mod_eq_of_lt]
  omega

/-- The cursor advances by one modulo `L` (R88). -/
theorem nextCursor_toNat (w len : Word) (h : w.toNat < len.toNat) :
    (BitVec.ofNat 32 (modLen ((w.toNat : Int) + 1) len.toNat)).toNat =
      (w.toNat + 1) % len.toNat := by
  have h1 : modLen ((w.toNat : Int) + 1) len.toNat = (w.toNat + 1) % len.toNat := by
    unfold modLen
    norm_cast
  have h2 := Nat.mod_lt (w.toNat + 1) (show 0 < len.toNat by omega)
  have h3 := len.isLt
  rw [h1, BitVec.toNat_ofNat, Nat.mod_eq_of_lt (by omega)]

/-! One node's turn, and both. -/

theorem dbTurn_processed (q : Nat) (b : Dbe) (n : Nat) (x : Node) (v m : F32)
    (h : isProcessed b n x = true) :
    dbTurn q b n x v m = (some (dbRead q b x m), dbStore b x v) := by simp [dbTurn, h]

/-- A skipped node is left wholly untouched (R90). -/
theorem dbTurn_skipped (q : Nat) (b : Dbe) (n : Nat) (x : Node) (v m : F32)
    (h : isProcessed b n x = false) : dbTurn q b n x v m = (none, b) := by simp [dbTurn, h]

@[simp] theorem dbTurn_ready (q : Nat) (b : Dbe) (n : Nat) (x : Node) (v m : F32) :
    (dbTurn q b n x v m).2.ready = b.ready := by unfold dbTurn; split <;> rfl
@[simp] theorem dbTurn_len (q : Nat) (b : Dbe) (n : Nat) (x : Node) (v m : F32) :
    (dbTurn q b n x v m).2.len = b.len := by unfold dbTurn; split <;> rfl
@[simp] theorem dbTurn_alloc (q : Nat) (b : Dbe) (n : Nat) (x : Node) (v m : F32) :
    (dbTurn q b n x v m).2.alloc = b.alloc := by unfold dbTurn; split <;> rfl
@[simp] theorem dbTurn_d (q : Nat) (b : Dbe) (n : Nat) (x : Node) (v m : F32) :
    (dbTurn q b n x v m).2.d = b.d := by unfold dbTurn; split <;> rfl

/-- One node's turn leaves the other node's cursor and bank. -/
theorem dbTurn_w_other (q : Nat) (b : Dbe) (n : Nat) {x y : Node} (v m : F32) (h : x ≠ y) :
    (dbTurn q b n x v m).2.w.get y = b.w.get y := by
  unfold dbTurn
  split
  · exact Pair.get_set_other _ _ h
  · rfl

theorem dbTurn_buf_other (q : Nat) (b : Dbe) (n : Nat) {x y : Node} (v m : F32) (h : x ≠ y) :
    (dbTurn q b n x v m).2.buf.get y = b.buf.get y := by
  unfold dbTurn
  split
  · exact Pair.get_set_other _ _ h
  · rfl

/-- Node A's turn changes nothing node B's turn depends on, and the reverse. -/
theorem dbRead_congr (q : Nat) {b b' : Dbe} (x : Node) (m : F32) (hl : b.len = b'.len)
    (hw : b.w.get x = b'.w.get x) (hd : b.d.get x = b'.d.get x) (hb : b.buf.get x = b'.buf.get x) :
    dbRead q b x m = dbRead q b' x m := by
  simp [dbRead, readIndex, readBase, memRead, hl, hw, hd, hb]

@[simp] theorem dbProcess_ready (q n : Nat) (ins mods : Pair F32) (b : Dbe) :
    (dbProcess q n ins mods b).2.ready = b.ready := by simp [dbProcess]
@[simp] theorem dbProcess_len (q n : Nat) (ins mods : Pair F32) (b : Dbe) :
    (dbProcess q n ins mods b).2.len = b.len := by simp [dbProcess]
@[simp] theorem dbProcess_alloc (q n : Nat) (ins mods : Pair F32) (b : Dbe) :
    (dbProcess q n ins mods b).2.alloc = b.alloc := by simp [dbProcess]
@[simp] theorem dbProcess_d (q n : Nat) (ins mods : Pair F32) (b : Dbe) :
    (dbProcess q n ins mods b).2.d = b.d := by simp [dbProcess]

theorem isProcessed_dbTurn (q : Nat) (b : Dbe) (n : Nat) (x y : Node) (v m : F32) :
    isProcessed (dbTurn q b n x v m).2 n y = isProcessed b n y := by
  simp [isProcessed, processedNodes]

/-- Which nodes are processed (R88, R90). -/
theorem isProcessed_iff (b : Dbe) (n : Nat) (x : Node) :
    isProcessed b n x = true ↔ x.index < min n b.alloc.toNat := by simp [isProcessed, processedNodes]

/-- What `DB.process` returns for a node: the read of the engine before the command (R88). -/
theorem dbProcess_out (q n : Nat) (ins mods : Pair F32) (b : Dbe) :
    (dbProcess q n ins mods b).1 =
      ⟨if isProcessed b n .a then some (dbRead q b .a mods.a) else none,
       if isProcessed b n .b then some (dbRead (q + 5) b .b mods.b) else none⟩ := by
  have hw := dbTurn_w_other q b n ins.a mods.a (show Node.a ≠ Node.b by decide)
  have hb := dbTurn_buf_other q b n ins.a mods.a (show Node.a ≠ Node.b by decide)
  have hc : dbRead (q + 5) (dbTurn q b n .a ins.a mods.a).2 .b mods.b =
      dbRead (q + 5) b .b mods.b := dbRead_congr _ _ _ (by simp) hw (by simp) hb
  have hp := isProcessed_dbTurn q b n .a .b ins.a mods.a
  simp only [dbProcess]
  congr 1
  · unfold dbTurn; split <;> rfl
  · generalize (dbTurn q b n .a ins.a mods.a).2 = b1 at hc hp
    unfold dbTurn
    rw [hp, hc]
    split <;> rfl

/-- The cursor of a node after `DB.process` (R88). -/
theorem dbProcess_w (q n : Nat) (ins mods : Pair F32) (b : Dbe) (x : Node) :
    (dbProcess q n ins mods b).2.w.get x =
      if isProcessed b n x then
        BitVec.ofNat 32 (modLen ((b.w.get x).toNat + 1) b.len.toNat)
      else b.w.get x := by
  have hab := dbTurn_w_other q b n ins.a mods.a (show Node.a ≠ Node.b by decide)
  have hp := isProcessed_dbTurn q b n .a .b ins.a mods.a
  simp only [dbProcess]
  cases x
  · rw [dbTurn_w_other _ _ _ _ _ (show Node.b ≠ Node.a by decide)]
    unfold dbTurn; split <;> simp [*]
  · have hl := dbTurn_len q b n .a ins.a mods.a
    generalize (dbTurn q b n .a ins.a mods.a).2 = b1 at hab hp hl
    unfold dbTurn
    rw [hp]
    split
    · simp only [dbStore_w, Pair.get_set_same, hab, hl]
    · exact hab

/-- The bank of a node after `DB.process` (R88). -/
theorem dbProcess_buf (q n : Nat) (ins mods : Pair F32) (b : Dbe) (x : Node) :
    (dbProcess q n ins mods b).2.buf.get x =
      if isProcessed b n x then
        bankWrite (b.buf.get x) (b.w.get x).toNat (ins.get x)
      else b.buf.get x := by
  have hw := dbTurn_w_other q b n ins.a mods.a (show Node.a ≠ Node.b by decide)
  have hab := dbTurn_buf_other q b n ins.a mods.a (show Node.a ≠ Node.b by decide)
  have hp := isProcessed_dbTurn q b n .a .b ins.a mods.a
  simp only [dbProcess]
  cases x
  · rw [dbTurn_buf_other _ _ _ _ _ (show Node.b ≠ Node.a by decide)]
    unfold dbTurn; split <;> simp [*, memWrite]
  · generalize (dbTurn q b n .a ins.a mods.a).2 = b1 at hw hab hp
    unfold dbTurn
    rw [hp]
    split
    · simp only [dbStore_buf, memWrite, Pair.get_set_same, hw, hab]
      rfl
    · exact hab

/-- `DB.process` stores at the cursors of the processed nodes and nowhere else (R49). -/
theorem memRead_dbProcess (q n : Nat) (ins mods : Pair F32) (b : Dbe)
    (h : Memory.wf b.buf = true) (x : Node) (i : Nat) :
    memRead (dbProcess q n ins mods b).2.buf x i =
      if isProcessed b n x = true ∧ i = (b.w.get x).toNat then ins.get x else memRead b.buf x i := by
  unfold memRead
  rw [dbProcess_buf]
  by_cases hp : isProcessed b n x = true
  · simp [hp, bankRead_bankWrite _ (Memory.wf_get h x)]
  · simp [hp]

/-- `DB.process` writes the cursors and the banks and no other register (R88). -/
theorem dbProcess_frame (q n : Nat) (ins mods : Pair F32) (b : Dbe) :
    (dbProcess q n ins mods b).2 =
      { b with w := (dbProcess q n ins mods b).2.w, buf := (dbProcess q n ins mods b).2.buf } := by
  unfold dbProcess dbTurn
  dsimp only
  split <;> split <;> rfl

/-- A packet's lanes (30_encoding.md R75). -/
theorem lane_packet (a b : F32) (x : Node) : lane (a ++ b) x = (Pair.mk a b).get x := by
  have ha := a.isLt
  have hb := b.isLt
  apply BitVec.eq_of_toNat_eq
  cases x <;>
    simp only [lane, Pair.get_a, Pair.get_b, BitVec.extractLsb'_toNat, Nat.shiftRight_eq_div_pow] <;>
    rw [BitVec.toNat_append, ← Nat.shiftLeft_add_eq_or_of_lt hb, Nat.shiftLeft_eq] <;> omega

/-- What `wordsExist` says: `L` is within the banks and the cursor of each processed node is below `L`. -/
theorem wordsExist_iff (p : Params) (b : Dbe) (n : Nat) :
    wordsExist p b n = true ↔
      b.len.toNat ≤ p.maxLen ∧ ∀ x, isProcessed b n x = true → (b.w.get x).toNat < b.len.toNat := by
  simp only [wordsExist, Bool.and_eq_true, Bool.or_eq_true, Bool.not_eq_true', decide_eq_true_eq]
  constructor
  · rintro ⟨⟨h0, ha⟩, hb⟩
    refine ⟨h0, fun x hx => ?_⟩
    cases x
    · rcases ha with ha | ha
      · rw [ha] at hx; cases hx
      · exact ha
    · rcases hb with hb | hb
      · rw [hb] at hx; cases hx
      · exact hb
  · rintro ⟨h0, h⟩
    refine ⟨⟨h0, ?_⟩, ?_⟩
    · cases hp : isProcessed b n .a
      · exact .inl rfl
      · exact .inr (h .a hp)
    · cases hp : isProcessed b n .b
      · exact .inl rfl
      · exact .inr (h .b hp)

/-- The DBE invariant rules the missing word out (20_memory.md R48). -/
theorem wordsExist_of_regsOk {p : Params} {b : Dbe} (h : DbeRegsOk p b) (n : Nat) :
    wordsExist p b n = true :=
  (wordsExist_iff p b n).2 ⟨h.2.1, fun x _ => by
    cases x
    · exact h.2.2.2.1
    · exact h.2.2.2.2.1⟩

theorem DbeRegsOk.w_lt {p : Params} {b : Dbe} (h : DbeRegsOk p b) (x : Node) :
    (b.w.get x).toNat < b.len.toNat := by
  cases x
  · exact h.2.2.2.1
  · exact h.2.2.2.2.1

theorem DbeRegsOk.d_pos {p : Params} {b : Dbe} (h : DbeRegsOk p b) (x : Node) :
    1 ≤ (b.d.get x).toNat ∧ (b.d.get x).toNat < b.len.toNat := by
  cases x
  · exact ⟨h.2.2.2.2.2.1, h.2.2.2.2.2.2.1⟩
  · exact ⟨h.2.2.2.2.2.2.2.1, h.2.2.2.2.2.2.2.2⟩

/-- The cursor of a node after `DB.process`, as a number (R88). -/
theorem dbProcess_w_toNat {p : Params} (q n : Nat) (ins mods : Pair F32) {b : Dbe}
    (h : DbeRegsOk p b) (x : Node) :
    ((dbProcess q n ins mods b).2.w.get x).toNat =
      if x.index < min n b.alloc.toNat then ((b.w.get x).toNat + 1) % b.len.toNat
      else (b.w.get x).toNat := by
  rw [dbProcess_w]
  simp only [isProcessed_iff]
  split
  · exact nextCursor_toNat _ _ (h.w_lt x)
  · rfl

end Sys2Proof.Machine
end

