-- ==== Sys2Proof/Laws/Exec.lean ====
section
/-! SUPPORT. When each command answers a next state, and which; what one step can do. -/

namespace Sys2Proof.Machine

theorem next_eq_next {a t : State} : (Host.Outcome.next a : Result) = .next t ↔ t = a :=
  ⟨fun h => by cases h; rfl, fun h => by rw [h]⟩

theorem needDb_next {s : State} {r : Result} {t : State} :
    needDb s r = .next t ↔ s.db.ready = true ∧ r = .next t := by
  unfold needDb contractViolation
  split <;> simp_all

theorem needFn_next {s : State} {r : Result} {t : State} :
    needFn s r = .next t ↔ s.net.ready = true ∧ r = .next t := by
  unfold needFn contractViolation
  split <;> simp_all

theorem needDb_unready {s : State} (h : s.db.ready = false) (r : Result) :
    needDb s r = .fault .notPrepared := by simp [needDb, h, contractViolation]

theorem needFn_unready {s : State} (h : s.net.ready = false) (r : Result) :
    needFn s r = .fault .notPrepared := by simp [needFn, h, contractViolation]

/-! One lemma a command: when it answers a next state, and which. -/

theorem execDbprep_next {n : BitVec 8} {m : Word} {s t : State} :
    execDbprep n m s = .next t ↔
      t = { s with db := dbPrepare s.params m.toNat n.toNat s.db } := next_eq_next

theorem execDbclr_next {s t : State} :
    execDbclr s = .next t ↔ s.db.ready = true ∧ t = { s with db := dbClear s.db } := by
  rw [execDbclr, needDb_next, next_eq_next]

theorem execDbsetd_next {a b : Word} {s t : State} :
    execDbsetd a b s = .next t ↔
      s.db.ready = true ∧ t = { s with db := dbSetDelay a.toInt b.toInt s.db } := by
  rw [execDbsetd, needDb_next, next_eq_next]; rfl

theorem execPrepare_next {n : BitVec 8} {fs ms : F32} {s t : State} :
    execPrepare n fs ms s = .next t ↔
      t = spendFree { s with
        db := dbSetDelay s.params.baseDelay s.params.baseDelay
          (dbPrepare s.params (ms2Len s.free fs ms) n.toNat s.db)
        lfo := { s.lfo with ph := ⟨f0, halfPi⟩, inc := phaseInc (s.free + 2) s.lfo.rate fs }
        net := { s.net with
          ready := true, fs := fs, fb := ⟨f0, f0⟩,
          ramp := prepareRamps s.params (s.free + 5) fs s.net.tgt s.net.ramp } } := next_eq_next

theorem execClear_next {s t : State} :
    execClear s = .next t ↔
      s.net.ready = true ∧
      t = { s with db := dbClear s.db, net := { s.net with fb := ⟨f0, f0⟩ } } := by
  rw [execClear, needFn_next, next_eq_next]

theorem execSetofs_next {f : Bool} {ms : F32} {s t : State} :
    execSetofs f ms s = .next t ↔
      s.net.ready = true ∧
      t = spendFree { s with net := setTarget .ofs (fsub (s.free + 2) (ms2Smp s.free s.net.fs ms)
        (intToF32 s.params.baseDelay)) f s.net } := by
  rw [execSetofs, needFn_next, next_eq_next]

theorem execSetdep_next {f : Bool} {ms : F32} {s t : State} :
    execSetdep f ms s = .next t ↔
      s.net.ready = true ∧
      t = spendFree { s with
        net := setTarget .dep (ms2Smp s.free s.net.fs (nonNegative ms)) f s.net } := by
  rw [execSetdep, needFn_next, next_eq_next]

theorem execSetrate_next {hz : F32} {s t : State} :
    execSetrate hz s = .next t ↔
      s.net.ready = true ∧
      t = spendFree { s with lfo := { s.lfo with
        rate := nonNegative hz, inc := phaseInc s.free (nonNegative hz) s.net.fs } } := by
  rw [execSetrate, needFn_next, next_eq_next]

theorem execDbproc_next {n : BitVec 8} {a b c d : F32} {s t : State} :
    execDbproc n a b c d s = .next t ↔
      s.db.ready = true ∧ wordsExist s.params s.db n.toNat = true ∧
      t = emit ((dbProcess s.free n.toNat ⟨a, b⟩ ⟨c, d⟩ s.db).1.a.getD f0)
            ((dbProcess s.free n.toNat ⟨a, b⟩ ⟨c, d⟩ s.db).1.b.getD f0)
            (spendFree { s with db := (dbProcess s.free n.toNat ⟨a, b⟩ ⟨c, d⟩ s.db).2 }) := by
  unfold execDbproc
  rw [needDb_next]
  by_cases h : wordsExist s.params s.db n.toNat = true
  · simp [readU8, h, next_eq_next, -Host.Outcome.next.injEq]
  · simp [readU8, h]

/-- The feedback state after a TICK: the value read for a processed node, the kept one else (R133). -/
def tickFb (n : BitVec 8) (xA xB : F32) (s : State) : Pair F32 :=
  let out := (dbProcess (s.free + 30) n.toNat (combinedInput xA xB s) (modulation s) s.db).1
  ⟨out.a.getD s.net.fb.a, out.b.getD s.net.fb.b⟩

theorem execTick_next {n : BitVec 8} {xA xB : F32} {s t : State} :
    execTick n xA xB s = .next t ↔
      s.net.ready = true ∧ wordsExist s.params s.db n.toNat = true ∧
      t = emit (tickFb n xA xB s).a (tickFb n xA xB s).b (spendFree
        { s with
          db := (dbProcess (s.free + 30) n.toNat (combinedInput xA xB s) (modulation s) s.db).2
          lfo := lfoAdvance (s.free + 4) s.lfo
          net := { s.net with fb := tickFb n xA xB s, ramp := ramped s } }) := by
  unfold execTick
  rw [needFn_next]
  by_cases h : wordsExist s.params s.db n.toNat = true
  · simp [readU8, h, tickFb, next_eq_next, -Host.Outcome.next.injEq]
  · simp [readU8, h]

theorem execSetgain_next {n : BitVec 8} {f : Bool} {g : F32} {s t : State} :
    execSetgain n f g s = .next t ↔
      (nodeOf n = none ∧ t = s) ∨ (∃ x, nodeOf n = some x ∧ s.net.ready = true ∧
        t = { s with net := setTarget (gainRamp x) (gainClamp g) f s.net }) := by
  unfold execSetgain discard
  cases h : nodeOf n <;> simp [needFn_next, next_eq_next, -Host.Outcome.next.injEq]

theorem execSettype_next {n : BitVec 8} {s t : State} :
    execSettype n s = .next t ↔
      (waveOf n = none ∧ t = s) ∨ (∃ v, waveOf n = some v ∧ s.net.ready = true ∧
        t = { s with lfo := { s.lfo with typ := v } }) := by
  unfold execSettype discard
  cases h : waveOf n <;> simp [needFn_next, next_eq_next, -Host.Outcome.next.injEq]

/-- Everything one step can do: idle, discard an illegal word, or execute a command (R177, R187). -/
theorem step_next {s t : State} :
    step s = .next t ↔
      (s.port = [] ∧ t = s) ∨
      (∃ w rest, s.port = w :: rest ∧
        ((∃ r, decode w = .illegal r ∧ t = { s with port := rest }) ∨
         (∃ i, decode w = .cmd i ∧ exec i { s with port := rest } = .next t))) := by
  unfold step takeCommand
  cases h : s.port with
  | nil => simp [next_eq_next, -Host.Outcome.next.injEq]
  | cons w rest =>
    cases hd : decode w <;> simp [discard, hd, next_eq_next, -Host.Outcome.next.injEq]

theorem nodeOf_wellFormed {n : BitVec 8} {f : Bool} {g : F32}
    (h : (Instr.setgain n f g).wellFormed = true) : ∃ x, nodeOf n = some x := by
  simp only [Instr.wellFormed, decide_eq_true_eq] at h
  unfold nodeOf
  by_cases h0 : n.toNat = 0
  · exact ⟨.a, by simp [h0]⟩
  · exact ⟨.b, by simp [show n.toNat = 1 by omega]⟩

theorem waveOf_wellFormed {n : BitVec 8} (h : (Instr.settype n).wellFormed = true) :
    ∃ v, waveOf n = some v := by
  simp only [Instr.wellFormed, decide_eq_true_eq] at h
  unfold waveOf
  by_cases h0 : n.toNat = 0
  · exact ⟨.sine, by simp [h0]⟩
  · by_cases h1 : n.toNat = 1
    · exact ⟨.triangle, by simp [h1]⟩
    · exact ⟨.sawtooth, by simp [show n.toNat = 2 by omega]⟩

/-! No command sees the words that wait behind it (R180). -/

/-- The outcome with the given words waiting. -/
def withPort (p : List Cmd) : Result → Result
  | .next t => .next { t with port := p }
  | .fault r => .fault r
  | .refused r => .refused r

theorem needDb_port (p : List Cmd) (s : State) (r r' : Result) (h : r' = withPort p r) :
    needDb { s with port := p } r' = withPort p (needDb s r) := by
  subst h
  unfold needDb
  cases s.db.ready <;> rfl

theorem needFn_port (p : List Cmd) (s : State) (r r' : Result) (h : r' = withPort p r) :
    needFn { s with port := p } r' = withPort p (needFn s r) := by
  subst h
  unfold needFn
  cases s.net.ready <;> rfl

/-- Executing a command leaves the waiting words and does not depend on them. -/
theorem exec_port (i : Instr) (s : State) (p : List Cmd) :
    exec i { s with port := p } = withPort p (exec i s) := by
  cases i with
  | dbprep => rfl
  | dbclr => exact needDb_port p s _ _ rfl
  | dbsetd => exact needDb_port p s _ _ rfl
  | dbproc n =>
    refine needDb_port p s _ _ ?_
    dsimp only
    split <;> rfl
  | prepare => rfl
  | clear => exact needFn_port p s _ _ rfl
  | tick n =>
    refine needFn_port p s _ _ ?_
    dsimp only
    split <;> rfl
  | setofs => exact needFn_port p s _ _ rfl
  | setdep => exact needFn_port p s _ _ rfl
  | setgain n f g =>
    simp only [exec, execSetgain]
    split
    · rfl
    · exact needFn_port p s _ _ rfl
  | setrate => exact needFn_port p s _ _ rfl
  | settype n =>
    simp only [exec, execSettype]
    split
    · rfl
    · exact needFn_port p s _ _ rfl

/-- A command leaves the waiting words as they are (R180). -/
theorem exec_next_port {i : Instr} {s t : State} (h : exec i s = .next t) : t.port = s.port := by
  have e := exec_port i s s.port
  rw [show { s with port := s.port } = s from rfl, h] at e
  simp only [withPort, Host.Outcome.next.injEq] at e
  rw [e]

/-- A step with a word waiting takes it and sees none of the words behind it (R177, R180). -/
theorem step_port (w : Cmd) (p p' : List Cmd) (s : State) :
    step { s with port := w :: p' } = withPort p' (step { s with port := w :: p }) := by
  simp only [step, takeCommand]
  cases decode w with
  | illegal r => rfl
  | cmd i => exact exec_port i { s with port := p } p'

/-- A step with a word waiting leaves the words behind it. -/
theorem step_next_port {w : Cmd} {p : List Cmd} {s t : State}
    (h : step { s with port := w :: p } = .next t) : t.port = p := by
  have e := step_port w p p s
  rw [h] at e
  simp only [withPort, Host.Outcome.next.injEq] at e
  rw [e]

end Sys2Proof.Machine
end

