-- ==== Sys2Proof/Laws/Ramp.lean ====
section
/-! SUPPORT. What the calls on a ramp unit do (43_ramp_port.md R151 to R153, R159 to R161). -/

namespace Sys2Proof.Machine

@[simp] theorem rampSteps_zero (q : Nat → Nat) (u : RampUnit) : rampSteps q 0 u = u := rfl
@[simp] theorem rampSteps_succ (q : Nat → Nat) (m : Nat) (u : RampUnit) :
    rampSteps q (m + 1) u = rampNext (q m) (rampSteps q m u) := rfl
@[simp] theorem rampValue_ref (r : RefRamp) : rampValue (.ref r) = r.cur := rfl
@[simp] theorem rampValue_contract (r : ContractRamp) : rampValue (.contract r) = r.cur := rfl
@[simp] theorem rampNext_ref (q : Nat) (r : RefRamp) :
    rampNext q (.ref r) = .ref (refRampNext q r) := rfl
@[simp] theorem rampNext_contract (q : Nat) (r : ContractRamp) :
    rampNext q (.contract r) = .contract (contractRampNext q r) := rfl

/-! A unit stays prepared: no call but `prepare` writes `N`, and `prepare` gives at least 1 (R159). -/

@[simp] theorem rampPrepared_next (q : Nat) (u : RampUnit) :
    rampPrepared (rampNext q u) = rampPrepared u := by
  cases u with
  | ref r =>
    simp only [rampNext_ref, rampPrepared, refRampNext, refRampPickUp]
    split <;> split <;> rfl
  | contract r => rfl

@[simp] theorem rampPrepared_setTarget (v : F32) (f : Bool) (u : RampUnit) :
    rampPrepared (rampSetTarget v f u) = rampPrepared u := by
  cases u with
  | ref r => cases f <;> rfl
  | contract r => rfl

theorem floorSatU32_lt (v : F32) : floorSatU32 v < 2 ^ 32 := by
  unfold floorSatU32
  split <;> omega

@[simp] theorem rampPrepared_prepare (p : Params) (q : Nat) (fs : F32) (imm : Bool) (v : F32)
    (u : RampUnit) : rampPrepared (rampPrepare p q fs imm v u) = true := by
  cases u with
  | ref r =>
    have h := floorSatU32_lt (fdiv (q + 1) (fmul q p.rampMs fs) f1000)
    have hn : 1 ≤ (BitVec.ofNat 32 (refRampLen p.rampMs q fs)).toNat := by
      unfold refRampLen
      rw [BitVec.toNat_ofNat, Nat.mod_eq_of_lt] <;> omega
    cases imm <;> simpa [rampPrepare, refRampPrepare, rampPrepared] using hn
  | contract r => rfl

/-- Writing one prepared unit keeps the four prepared. -/
theorem RampsOk.set {r : Quad RampUnit} {u : RampUnit} (i : RampId) (h : RampsOk r)
    (hu : rampPrepared u = true) : RampsOk (r.set i u) := by
  obtain ⟨h1, h2, h3, h4⟩ := h
  cases i <;> exact ⟨by assumption, by assumption, by assumption, by assumption⟩

theorem RampsOk.get {r : Quad RampUnit} (h : RampsOk r) (i : RampId) :
    rampPrepared (r.get i) = true := by
  obtain ⟨h1, h2, h3, h4⟩ := h
  cases i <;> assumption

/-- PREPARE prepares the four units (R121), whatever they held. -/
theorem rampsOk_prepareRamps (p : Params) (q : Nat) (fs : F32) (tgt : Quad F32)
    (r : Quad RampUnit) : RampsOk (prepareRamps p q fs tgt r) := by
  simp [RampsOk, prepareRamps]

/-- A TICK keeps the four units prepared. -/
theorem rampsOk_ramped {s : State} (h : RampsOk s.net.ramp) : RampsOk (ramped s) := by
  simpa [RampsOk, ramped, tickRamps] using h

/-- A settled `RefRamp` stays as it is (R161). -/
theorem refRampNext_settled (q : Nat) {r : RefRamp} (hd : r.dirty = false) (hl : r.left = 0) :
    refRampNext q r = r := by
  simp [refRampNext, refRampPickUp, hd, hl]

/-- A glide step: one less left, the target itself at the last (R161). -/
theorem refRampNext_glide (q : Nat) {r : RefRamp} (hd : r.dirty = false) (hl : 0 < r.left.toNat) :
    refRampNext q r =
      { r with left := r.left - 1,
               cur := if r.left - 1 = 0 then r.act else fadd (q + 2) r.cur r.step } := by
  simp [refRampNext, refRampPickUp, hd, hl]

/-- The first step after an unforced `setTarget` picks the target up (R161). -/
theorem refRampNext_dirty (q : Nat) {r : RefRamp} (hd : r.dirty = true) (hl : 0 < r.len.toNat) :
    (refRampNext q r).dirty = false ∧ (refRampNext q r).act = r.tgt ∧
      (refRampNext q r).left = r.len - 1 ∧ (refRampNext q r).len = r.len ∧
      (r.len - 1 = 0 → (refRampNext q r).cur = r.tgt) := by
  simp only [refRampNext, refRampPickUp, hd, if_true, hl]
  refine ⟨trivial, trivial, trivial, trivial, fun h => ?_⟩
  rw [if_pos h]

/-- A conforming ramp whose duration is over applies its target (R155 (a)). -/
theorem contractRampNext_over (q : Nat) {r : ContractRamp} (h : r.left = 0) :
    contractRampNext q r = { r with cur := r.tgt } := by
  simp only [contractRampNext]
  rw [h]

/-- A glide value is the unknown word when that is between, else the target; with both ends not NaN
it is between them (R155 (b)). -/
theorem glideValue_between (x start tgt : F32) (hs : isNaN start = false) (ht : isNaN tgt = false)
    (hle : fle start tgt = true ∨ fle tgt start = true) :
    (fle start (glideValue x start tgt) = true ∧ fle (glideValue x start tgt) tgt = true) ∨
    (fle tgt (glideValue x start tgt) = true ∧ fle (glideValue x start tgt) start = true) := by
  have hr : fle tgt tgt = true := by simp [fle, ht]
  unfold glideValue
  simp only [hs, ht, Bool.or_self, Bool.false_eq_true, if_false]
  split
  · rename_i h
    simpa using h
  · rcases hle with h | h
    · exact .inl ⟨h, hr⟩
    · exact .inr ⟨hr, h⟩

end Sys2Proof.Machine
end

