-- ==== Sys2Proof/Certificates/Slice0/Obligations.lean ====
section
/-! DEFINITION. The statements for the provers. Each docstring names the rule of spec/ it formalises, or
says that it is derived. A statement about a free value holds for every value: the numbers of the
free values are the state's counter `free` and are never compared with a value. -/

open Sys2Proof Sys2Proof.Machine

/-! ## Encoding (30_encoding.md) -/

/-- Derived from R60 to R66: no bit of an encoding is dropped. -/
def Obligations.DecodeOfEncode : Prop :=
  ∀ i : Instr, i.wellFormed = true → decode (encode i) = .cmd i

/-- Derived from R61, R65, R66: a word that decodes is the one encoding of its command, so every unused
bit of it is zero and no two words mean the same command. -/
def Obligations.EncodeOfDecode : Prop :=
  ∀ (w : Cmd) (i : Instr), decode w = .cmd i → i.wellFormed = true ∧ encode i = w

/-- The twelve defined opcodes (R64). -/
def definedOpcodes : List (BitVec 8) :=
  [0x01, 0x02, 0x03, 0x04, 0x10, 0x11, 0x12, 0x20, 0x21, 0x22, 0x23, 0x24]

/-- Derived from R61, R64, R66, R68, R69: which words are illegal, and for which of the three reasons. -/
def Obligations.IllegalWordsByReason : Prop :=
  ∀ w : Cmd,
    (decode w = .illegal .reservedOpcode ↔ (fields w).op ∉ definedOpcodes) ∧
    (decode w = .illegal .nonZeroReservedField ↔
      (fields w).op ∈ definedOpcodes ∧ ∀ i, encode i ≠ w) ∧
    (decode w = .illegal .reservedFieldValue ↔ ∃ i : Instr, i.wellFormed = false ∧ encode i = w)

/-- Derived from R74: worked encodings of the spec, one or two of each family, and illegal ones. -/
def Obligations.SpecWordsDecode : Prop :=
  decode 0x0102000000000008000000000000000000000000#160 = .cmd (.dbprep 2 8) ∧
  decode 0x03000000FFFFFFFB000000640000000000000000#160 = .cmd (.dbsetd 0xFFFFFFFB#32 100) ∧
  decode 0x040200003F8000003F800000000000003E800000#160 =
    .cmd (.dbproc 2 0x3F800000#32 0x3F800000#32 0 0x3E800000#32) ∧
  decode 0x10020000447A000040E000000000000000000000#160 =
    .cmd (.prepare 2 0x447A0000#32 0x40E00000#32) ∧
  decode 0x120200003F8000003F8000000000000000000000#160 =
    .cmd (.tick 2 0x3F800000#32 0x3F800000#32) ∧
  decode 0x2201000140200000000000000000000000000000#160 = .cmd (.setgain 1 true 0x40200000#32) ∧
  decode 0x2402000000000000000000000000000000000000#160 = .cmd (.settype 2) ∧
  decode 0x120200013F8000003F8000000000000000000000#160 = .illegal .nonZeroReservedField ∧
  decode 0x2403000000000000000000000000000000000000#160 = .illegal .reservedFieldValue ∧
  decode 0x0000000000000000000000000000000000000000#160 = .illegal .reservedOpcode

/-! ## One step (60_exceptions.md) -/

/-- R72, R177: an illegal word, whatever the reason and whatever the ready bits are, is taken from the
port and nothing else changes. -/
def Obligations.IllegalCommandIsDiscarded : Prop :=
  ∀ (s : State) (w : Cmd) (rest : List Cmd) (r : Illegal),
    s.port = w :: rest → decode w = .illegal r → step s = .next { s with port := rest }

/-- Derived from R68, R69, R72; the model's choice (log entry 13): the term of a reserved node or
waveform code, which no word decodes to, is discarded as the word it encodes to is. -/
def Obligations.ReservedTermsAreDiscarded : Prop :=
  ∀ (s : State) (i : Instr), i.wellFormed = false →
    exec i s = .next s ∧ decode (encode i) = .illegal .reservedFieldValue

/-- Derived from R180, R187, R191: a step executes the command decoded from the oldest waiting word, on
the state without that word; with no word waiting the core is idle and holds its state; the host's
word goes behind those that wait. -/
def Obligations.StepRunsTheDecodedCommand : Prop :=
  (∀ (s : State) (w : Cmd) (rest : List Cmd) (i : Instr),
    s.port = w :: rest → decode w = .cmd i → step s = exec i { s with port := rest }) ∧
  (∀ s : State, s.port = [] → step s = .next s) ∧
  (∀ (s : State) (w : Cmd), offer s w = { s with port := s.port ++ [w] })

/-- Derived from R134, R180, R187: a run of the words `ws` is `ws.length` steps of the core with `ws` in
front of the port, word after word in the order of arrival: what waits behind them is neither read
nor lost, and the run stops where a step stops. So a block of commands has no boundary effect. -/
def Obligations.RunIsTheStepsOfItsWords : Prop :=
  ∀ (ws : List Cmd) (s : State),
    runWords ws s = Host.Core.run Sys2Proof.core ws.length { s with port := ws ++ s.port }

/-! ## Ready bits (10_state.md R14, 60_exceptions.md R173) -/

/-- R173, R174: DBPREP and PREPARE need no ready bit; any other command faults as `notPrepared` while the
bit it needs is 0. (That an illegal command needs none is `IllegalCommandIsDiscarded`.) -/
def Obligations.UnreadyCommandsFault : Prop :=
  ∀ (s : State) (i : Instr),
    (opcodeOf i ∈ [0x01, 0x10] → ∃ t, exec i s = .next t) ∧
    (opcodeOf i ∈ [0x02, 0x03, 0x04] → s.db.ready = false → exec i s = .fault .notPrepared) ∧
    (opcodeOf i ∈ [0x11, 0x12, 0x20, 0x21, 0x22, 0x23, 0x24] → i.wellFormed = true →
      s.net.ready = false → exec i s = .fault .notPrepared)

/-- Derived from R173, R175, R48: in a state that meets the invariant a command stops only so, and with
both ready bits set no command stops. -/
def Obligations.CommandsStopOnlyUnready : Prop :=
  ∀ (s : State) (i : Instr), s.Inv →
    (∀ r, exec i s = .fault r → r = .notPrepared ∧
      ((opcodeOf i ∈ [0x02, 0x03, 0x04] ∧ s.db.ready = false) ∨
       (opcodeOf i ∈ [0x11, 0x12, 0x20, 0x21, 0x22, 0x23, 0x24] ∧ s.net.ready = false))) ∧
    (∀ r, exec i s ≠ .refused r) ∧
    (s.net.ready = true → ∃ t, exec i s = .next t)

/-- Derived from R14: no step clears a ready bit; only DBPREP and PREPARE set `dbReady`, only PREPARE
sets `fnReady`. -/
def Obligations.ReadyBitsOnlyRise : Prop :=
  (∀ s t : State, step s = .next t →
    (s.db.ready = true → t.db.ready = true) ∧ (s.net.ready = true → t.net.ready = true)) ∧
  (∀ (i : Instr) (s t : State), exec i s = .next t →
    (s.db.ready = false → t.db.ready = true → opcodeOf i = 0x01 ∨ opcodeOf i = 0x10) ∧
    (s.net.ready = false → t.net.ready = true → opcodeOf i = 0x10))

/-! ## The commands of the Delay Buffer Engine (40_delay_buffer.md) -/

/-- R81, R82. DBPREP always answers a next state. -/
def Obligations.DbprepResult : Prop :=
  ∀ (n : BitVec 8) (m : Word) (s : State), ParamsLegal s.params →
    ∃ t, exec (.dbprep n m) s = .next t ∧ t = { s with db := t.db } ∧
      t.db.ready = true ∧
      t.db.len.toNat = min (max m.toNat 2) s.params.maxLen ∧
      t.db.alloc.toNat = min n.toNat 2 ∧
      t.db.w = ⟨0, 0⟩ ∧ t.db.d = ⟨1, 1⟩ ∧
      ∀ c i, memRead t.db.buf c i =
        if c.index < t.db.alloc.toNat ∧ i < t.db.len.toNat then f0 else memRead s.db.buf c i

/-- R83, R84. -/
def Obligations.DbclrResult : Prop :=
  ∀ s : State,
    (s.db.ready = false → exec .dbclr s = .fault .notPrepared) ∧
    (s.db.ready = true → ∃ t, exec .dbclr s = .next t ∧
      t = { s with db := { s.db with buf := t.db.buf } } ∧
      ∀ c i, memRead t.db.buf c i =
        if c.index < s.db.alloc.toNat ∧ i < s.db.len.toNat then f0 else memRead s.db.buf c i)

/-- R85, R86, with the idempotence of R85. `2 <= L` is part of the invariant R18. -/
def Obligations.DbsetdResult : Prop :=
  ∀ (offA offB : Word) (s : State),
    (s.db.ready = false → exec (.dbsetd offA offB) s = .fault .notPrepared) ∧
    (s.db.ready = true → 2 ≤ s.db.len.toNat → ∃ t, exec (.dbsetd offA offB) s = .next t ∧
      t = { s with db := { s.db with d := t.db.d } } ∧
      (t.db.d.a.toNat : Int) = min (max offA.toInt 1) ((s.db.len.toNat : Int) - 1) ∧
      (t.db.d.b.toNat : Int) = min (max offB.toInt 1) ((s.db.len.toNat : Int) - 1) ∧
      exec (.dbsetd offA offB) t = .next t)

/-- R87: the interpolated modulated read, in the spec's own order. -/
def Obligations.DbReadFormula : Prop :=
  ∀ (q : Nat) (b : Dbe) (x : Node) (m : F32), 0 < b.len.toNat →
    let mc := if fge m f0 then m else f0
    let k := floorSatU32 mc
    let f := if flt mc f2p23 then fsub q mc (natToF32 k) else f0
    ∃ rb i0 i1 : Nat,
      (rb : Int) = ((b.w.get x).toNat - (b.d.get x).toNat : Int) % b.len.toNat ∧
      (i0 : Int) = ((rb : Int) - k) % b.len.toNat ∧
      (i1 : Int) = ((rb : Int) - k - 1) % b.len.toNat ∧
      dbRead q b x m =
        fadd (q + 4) (fmul (q + 2) (memRead b.buf x i0) (fsub (q + 1) f1 f))
          (fmul (q + 3) (memRead b.buf x i1) f)

/-- R88, R92: DBPROC with `ne = min(n, alloc)`: reads before writes, cursors, packet, and what it leaves.
The premises on the state are the invariant R18 and the memory's canonical form. -/
def Obligations.DbprocResult : Prop :=
  ∀ (n : BitVec 8) (inA inB modA modB : F32) (s : State),
    (s.db.ready = false → exec (.dbproc n inA inB modA modB) s = .fault .notPrepared) ∧
    (s.db.ready = true → DbeRegsOk s.params s.db → Memory.wf s.db.buf = true →
    let ne := min n.toNat s.db.alloc.toNat
    ∃ t, exec (.dbproc n inA inB modA modB) s = .next t ∧
      t = { s with free := t.free, out := t.out,
                   db := { s.db with w := t.db.w, buf := t.db.buf } } ∧
      t.out = s.out ++ [(if 0 < ne then dbRead s.free s.db .a modA else f0) ++
        (if 1 < ne then dbRead (s.free + 5) s.db .b modB else f0)] ∧
      (∀ x : Node, (t.db.w.get x).toNat =
        if x.index < ne then ((s.db.w.get x).toNat + 1) % s.db.len.toNat
        else (s.db.w.get x).toNat) ∧
      ∀ (x : Node) (i : Nat), memRead t.db.buf x i =
        if x.index < ne ∧ i = (s.db.w.get x).toNat then (Pair.mk inA inB).get x
        else memRead s.db.buf x i)

/-! ## The feedback network (42_feedback_network.md) -/

/-- R121. PREPARE always answers a next state. -/
def Obligations.PrepareResult : Prop :=
  ∀ (n : BitVec 8) (fs ms : F32) (s : State), ParamsLegal s.params →
    ∃ t, exec (.prepare n fs ms) s = .next t ∧
      t = { s with free := t.free, db := t.db,
                   lfo := { s.lfo with ph := ⟨f0, halfPi⟩, inc := t.lfo.inc },
                   net := { t.net with tgt := s.net.tgt } } ∧
      t.db.ready = true ∧ t.net.ready = true ∧ t.net.fs = fs ∧
      t.db.len.toNat = min (max (ms2Len s.free fs ms) 2) s.params.maxLen ∧
      t.db.alloc.toNat = min n.toNat 2 ∧ t.db.w = ⟨0, 0⟩ ∧
      (∀ x : Node, (t.db.d.get x).toNat =
        min (max s.params.baseDelay 1) (t.db.len.toNat - 1)) ∧
      (∀ c i, memRead t.db.buf c i =
        if c.index < t.db.alloc.toNat ∧ i < t.db.len.toNat then f0 else memRead s.db.buf c i) ∧
      t.lfo.inc = phaseInc (s.free + 2) s.lfo.rate fs ∧
      t.net.fb = ⟨f0, f0⟩ ∧
      t.net.ramp.ofs = rampPrepare s.params (s.free + 5) fs true s.net.tgt.ofs s.net.ramp.ofs ∧
      t.net.ramp.dep = rampPrepare s.params (s.free + 7) fs true s.net.tgt.dep s.net.ramp.dep ∧
      t.net.ramp.ga = rampPrepare s.params (s.free + 9) fs true s.net.tgt.ga s.net.ramp.ga ∧
      t.net.ramp.gb = rampPrepare s.params (s.free + 11) fs true s.net.tgt.gb s.net.ramp.gb

/-- R122, R123: the two conversions and the values the rules list. -/
def Obligations.MillisecondConversions : Prop :=
  ∀ q : Nat,
    (∀ fs ms : F32,
      ms2Smp q fs ms = fdiv (q + 1) (fmul q ms fs) f1000 ∧
      ms2Len q fs ms = min (floorSatU32 (ms2Smp q fs ms) + 1) (2 ^ 32 - 1)) ∧
    ms2Smp q f1000 0x40400000#32 = 0x40400000#32 ∧
    ms2Smp q 0x473B8000#32 0x40200000#32 = 0x42F00000#32 ∧
    ms2Smp q 0x472C4400#32 f1 = 0x42306666#32 ∧
    ms2Len q f1000 0x40E00000#32 = 8 ∧ ms2Len q f1000 f0 = 1 ∧
    ms2Len q f1000 0xC0800000#32 = 1 ∧ ms2Len q f1000 0x7FC00000#32 = 1 ∧
    ms2Len q f1000 0x4E6E6B28#32 = 1000000001

/-- R125. -/
def Obligations.ClearResult : Prop :=
  ∀ s : State,
    (s.net.ready = false → exec .clear s = .fault .notPrepared) ∧
    (s.net.ready = true → ∃ t, exec .clear s = .next t ∧
      t = { s with db := { s.db with buf := t.db.buf }, net := { s.net with fb := ⟨f0, f0⟩ } } ∧
      ∀ c i, memRead t.db.buf c i =
        if c.index < s.db.alloc.toNat ∧ i < s.db.len.toNat then f0 else memRead s.db.buf c i)

/-- R130, R131, R132, R133: the seven steps of TICK, with `ne = min(n, alloc)`, and what it leaves. The
premises on the state are the invariant R18 and the memory's canonical form. -/
def Obligations.TickResult : Prop :=
  ∀ (n : BitVec 8) (xA xB : F32) (s : State),
    (s.net.ready = false → exec (.tick n xA xB) s = .fault .notPrepared) ∧
    (s.net.ready = true → DbeRegsOk s.params s.db → Memory.wf s.db.buf = true →
    let q := s.free
    let ne := min n.toNat s.db.alloc.toNat
    let lfoA := lfoValue s.params.sin q s.lfo.typ s.lfo.ph.a
    let lfoB := lfoValue s.params.sin (q + 2) s.lfo.typ s.lfo.ph.b
    let rDep := rampNext (q + 8) s.net.ramp.dep
    let rOfs := rampNext (q + 11) s.net.ramp.ofs
    let rGa := rampNext (q + 14) s.net.ramp.ga
    let rGb := rampNext (q + 17) s.net.ramp.gb
    let modA := fadd (q + 21) (fmul (q + 20) lfoA (rampValue rDep)) (rampValue rOfs)
    let modB := fadd (q + 23) (fmul (q + 22) lfoB (rampValue rDep)) (rampValue rOfs)
    let cA := fmul (q + 24) s.net.fb.a (rampValue rGa)
    let cB := fmul (q + 25) s.net.fb.b (rampValue rGb)
    let inA := fadd (q + 27) (fadd (q + 26) xA cA) cB
    let inB := fadd (q + 29) (fadd (q + 28) xB cA) cB
    ∃ t, exec (.tick n xA xB) s = .next t ∧
      t = { s with free := t.free, out := t.out,
                   db := { s.db with w := t.db.w, buf := t.db.buf },
                   lfo := { s.lfo with ph := t.lfo.ph },
                   net := { s.net with fb := t.net.fb, ramp := ⟨rOfs, rDep, rGa, rGb⟩ } } ∧
      t.lfo.ph = ⟨advancePhase (q + 4) s.lfo.ph.a s.lfo.inc,
        advancePhase (q + 6) s.lfo.ph.b s.lfo.inc⟩ ∧
      t.net.fb.a = (if 0 < ne then dbRead (q + 30) s.db .a modA else s.net.fb.a) ∧
      t.net.fb.b = (if 1 < ne then dbRead (q + 35) s.db .b modB else s.net.fb.b) ∧
      t.out = s.out ++ [t.net.fb.a ++ t.net.fb.b] ∧
      (∀ x : Node, (t.db.w.get x).toNat =
        if x.index < ne then ((s.db.w.get x).toNat + 1) % s.db.len.toNat
        else (s.db.w.get x).toNat) ∧
      ∀ (x : Node) (i : Nat), memRead t.db.buf x i =
        if x.index < ne ∧ i = (s.db.w.get x).toNat then (Pair.mk inA inB).get x
        else memRead s.db.buf x i)

/-- R136. -/
def Obligations.SetofsResult : Prop :=
  ∀ (f : Bool) (ms : F32) (s : State),
    (s.net.ready = false → exec (.setofs f ms) s = .fault .notPrepared) ∧
    (s.net.ready = true →
    let v := fsub (s.free + 2) (ms2Smp s.free s.net.fs ms) (intToF32 s.params.baseDelay)
    ∃ t, exec (.setofs f ms) s = .next t ∧
      t = { s with free := t.free,
                   net := { s.net with
                     tgt := { s.net.tgt with ofs := v },
                     ramp := { s.net.ramp with ofs := rampSetTarget v f s.net.ramp.ofs } } })

/-- R137. -/
def Obligations.SetdepResult : Prop :=
  ∀ (f : Bool) (ms : F32) (s : State),
    (s.net.ready = false → exec (.setdep f ms) s = .fault .notPrepared) ∧
    (s.net.ready = true →
    let v := ms2Smp s.free s.net.fs (if fge ms f0 then ms else f0)
    ∃ t, exec (.setdep f ms) s = .next t ∧
      t = { s with free := t.free,
                   net := { s.net with
                     tgt := { s.net.tgt with dep := v },
                     ramp := { s.net.ramp with dep := rampSetTarget v f s.net.ramp.dep } } })

/-- R138. (Reserved nodes: `ReservedTermsAreDiscarded`.) -/
def Obligations.SetgainResult : Prop :=
  ∀ (n : BitVec 8) (f : Bool) (g : F32) (s : State),
    let gc := if fge g fNeg1 = true ∧ fle g f1 = true then g
      else if fgt g f1 then f1 else if flt g fNeg1 then fNeg1 else f0
    (s.net.ready = false → n = 0 ∨ n = 1 → exec (.setgain n f g) s = .fault .notPrepared) ∧
    (s.net.ready = true → n = 0 →
      exec (.setgain n f g) s = .next { s with net := { s.net with
        tgt := { s.net.tgt with ga := gc },
        ramp := { s.net.ramp with ga := rampSetTarget gc f s.net.ramp.ga } } }) ∧
    (s.net.ready = true → n = 1 →
      exec (.setgain n f g) s = .next { s with net := { s.net with
        tgt := { s.net.tgt with gb := gc },
        ramp := { s.net.ramp with gb := rampSetTarget gc f s.net.ramp.gb } } })

/-- R108, R109. -/
def Obligations.SetrateResult : Prop :=
  ∀ (hz : F32) (s : State),
    (s.net.ready = false → exec (.setrate hz) s = .fault .notPrepared) ∧
    (s.net.ready = true →
    let q := s.free
    let rate := if fge hz f0 then hz else f0
    let half := fmul q s.net.fs fHalf
    let r := if fgt rate half then half else rate
    ∃ t, exec (.setrate hz) s = .next t ∧
      t = { s with free := t.free,
                   lfo := { s.lfo with
                     rate := rate,
                     inc := fmul (q + 2) twoPi (fdiv (q + 1) r s.net.fs) } })

/-- R111. (Reserved codes: `ReservedTermsAreDiscarded`.) -/
def Obligations.SettypeResult : Prop :=
  ∀ (n : BitVec 8) (s : State),
    (s.net.ready = false → n = 0 ∨ n = 1 ∨ n = 2 →
      exec (.settype n) s = .fault .notPrepared) ∧
    (s.net.ready = true → n = 0 →
      exec (.settype n) s = .next { s with lfo := { s.lfo with typ := .sine } }) ∧
    (s.net.ready = true → n = 1 →
      exec (.settype n) s = .next { s with lfo := { s.lfo with typ := .triangle } }) ∧
    (s.net.ready = true → n = 2 →
      exec (.settype n) s = .next { s with lfo := { s.lfo with typ := .sawtooth } })

/-! ## What each command leaves unchanged -/

/-- R30, the read and write sets: a register not listed in a command's row is untouched by it. Opcodes as
in R64. The model's own `params` and `port` are touched by none. -/
def Obligations.WriteSets : Prop :=
  ∀ (i : Instr) (s t : State), exec i s = .next t →
    t.params = s.params ∧ t.port = s.port ∧
    (opcodeOf i ∉ [0x01, 0x10] →
      t.db.ready = s.db.ready ∧ t.db.len = s.db.len ∧ t.db.alloc = s.db.alloc) ∧
    (opcodeOf i ∉ [0x10] → t.net.ready = s.net.ready ∧ t.net.fs = s.net.fs) ∧
    (opcodeOf i ∉ [0x01, 0x04, 0x10, 0x12] → t.db.w = s.db.w) ∧
    (opcodeOf i ∉ [0x01, 0x03, 0x10] → t.db.d = s.db.d) ∧
    (opcodeOf i ∉ [0x01, 0x02, 0x04, 0x10, 0x11, 0x12] → t.db.buf = s.db.buf) ∧
    (opcodeOf i ∉ [0x10, 0x12] → t.lfo.ph = s.lfo.ph) ∧
    (opcodeOf i ∉ [0x10, 0x23] → t.lfo.inc = s.lfo.inc) ∧
    (opcodeOf i ∉ [0x23] → t.lfo.rate = s.lfo.rate) ∧
    (opcodeOf i ∉ [0x24] → t.lfo.typ = s.lfo.typ) ∧
    (opcodeOf i ∉ [0x10, 0x11, 0x12] → t.net.fb = s.net.fb) ∧
    (opcodeOf i ∉ [0x20] → t.net.tgt.ofs = s.net.tgt.ofs) ∧
    (opcodeOf i ∉ [0x21] → t.net.tgt.dep = s.net.tgt.dep) ∧
    (opcodeOf i ∉ [0x22] → t.net.tgt.ga = s.net.tgt.ga ∧ t.net.tgt.gb = s.net.tgt.gb) ∧
    (opcodeOf i ∉ [0x10, 0x12, 0x20] → t.net.ramp.ofs = s.net.ramp.ofs) ∧
    (opcodeOf i ∉ [0x10, 0x12, 0x21] → t.net.ramp.dep = s.net.ramp.dep) ∧
    (opcodeOf i ∉ [0x10, 0x12, 0x22] →
      t.net.ramp.ga = s.net.ramp.ga ∧ t.net.ramp.gb = s.net.ramp.gb) ∧
    (opcodeOf i ∉ [0x04, 0x12] → t.out = s.out)

/-- R49, the memory accesses of each command: every word outside the words a command stores to reads as
before. The words stored to are, for DBPREP and PREPARE, those below the new `L` of the banks below
the new `alloc`; for DBCLR and CLEAR those below `L` and `alloc`; for DBPROC and TICK the word at the
write cursor of each processed node; for the rest none. -/
def Obligations.MemoryFrame : Prop :=
  ∀ (i : Instr) (s t : State), ParamsLegal s.params → Memory.wf s.db.buf = true →
    exec i s = .next t → ∀ (c : Node) (j : Nat),
      (match i with
        | .dbprep n m =>
            ¬ (c.index < min n.toNat 2 ∧ j < min (max m.toNat 2) s.params.maxLen)
        | .prepare n fs ms =>
            ¬ (c.index < min n.toNat 2 ∧
              j < min (max (ms2Len s.free fs ms) 2) s.params.maxLen)
        | .dbclr => ¬ (c.index < s.db.alloc.toNat ∧ j < s.db.len.toNat)
        | .clear => ¬ (c.index < s.db.alloc.toNat ∧ j < s.db.len.toNat)
        | .dbproc n _ _ _ _ =>
            ¬ (c.index < min n.toNat s.db.alloc.toNat ∧ j = (s.db.w.get c).toNat)
        | .tick n _ _ =>
            ¬ (c.index < min n.toNat s.db.alloc.toNat ∧ j = (s.db.w.get c).toNat)
        | .dbsetd _ _ => True
        | .setofs _ _ => True
        | .setdep _ _ => True
        | .setgain _ _ _ => True
        | .setrate _ => True
        | .settype _ => True) →
      memRead t.db.buf c j = memRead s.db.buf c j

/-- R75: exactly one packet by each DBPROC and each TICK that executes, none by any other command; the
packets before it stay in place. -/
def Obligations.OnePacketPerProcessingCommand : Prop :=
  ∀ (i : Instr) (s t : State), exec i s = .next t →
    if opcodeOf i ∈ [0x04, 0x12] then ∃ p : Packet, t.out = s.out ++ [p] else t.out = s.out

/-- Derived from R90, R133 (decision D11): a node at or above `min(n, alloc)` keeps its bank, cursor and
feedback state, and its lane carries +0.0 in DBPROC and the kept feedback value in TICK. -/
def Obligations.SkippedNodeIsUntouched : Prop :=
  ∀ (n : BitVec 8) (s t : State) (x : Node), min n.toNat s.db.alloc.toNat ≤ x.index →
    (∀ a b c d, exec (.dbproc n a b c d) s = .next t →
      t.db.buf.get x = s.db.buf.get x ∧ t.db.w.get x = s.db.w.get x ∧
      ∃ p, t.out = s.out ++ [p] ∧ lane p x = f0) ∧
    (∀ xA xB, exec (.tick n xA xB) s = .next t →
      t.db.buf.get x = s.db.buf.get x ∧ t.db.w.get x = s.db.w.get x ∧
      t.net.fb.get x = s.net.fb.get x ∧
      ∃ p, t.out = s.out ++ [p] ∧ lane p x = s.net.fb.get x)

/-- Derived from R90: a channel count above the allocated count acts as the allocated count. -/
def Obligations.ChannelCountIsClamped : Prop :=
  ∀ (n : BitVec 8) (s : State), s.db.alloc.toNat ≤ n.toNat →
    (∀ a b c d, exec (.dbproc n a b c d) s = exec (.dbproc s.db.alloc a b c d) s) ∧
    (∀ xA xB, exec (.tick n xA xB) s = exec (.tick s.db.alloc xA xB) s)

/-- Derived from R49, R88: the two nodes of the engine do not meet. What a node's lane carries and what its
registers and bank become does not depend on the other node's, nor on the other node's operands. -/
def Obligations.NodesDoNotSeeEachOther : Prop :=
  ∀ (x : Node) (n : BitVec 8) (a b c d a' b' c' d' : F32) (s s' t t' : State),
    s.db.len = s'.db.len → s.db.alloc = s'.db.alloc → s.free = s'.free →
    s.db.w.get x = s'.db.w.get x → s.db.d.get x = s'.db.d.get x →
    s.db.buf.get x = s'.db.buf.get x →
    (Pair.mk a b).get x = (Pair.mk a' b').get x → (Pair.mk c d).get x = (Pair.mk c' d').get x →
    exec (.dbproc n a b c d) s = .next t → exec (.dbproc n a' b' c' d') s' = .next t' →
    t.db.w.get x = t'.db.w.get x ∧ t.db.buf.get x = t'.db.buf.get x ∧
    ∃ p p', t.out = s.out ++ [p] ∧ t'.out = s'.out ++ [p'] ∧ lane p x = lane p' x

/-! ## Invariants and reset -/

/-- Derived from R6, R14, R22, R26, R32: the invariant holds at reset, and so does the LFO's. What rests on
no value of the spec is the model's choice: the model arguments (log entry 1); both phases and `inc`
in range, since they are +0.0 (log entry 5); the banks in canonical form, since they list nothing
(log entry 6). -/
def Obligations.ResetMeetsInvariants : Prop := State.reset.Inv ∧ LfoOk State.reset.lfo

/-- Derived from R14, R18, R22, R26, R41, R109, R121, R138, R158: from every state that meets the
invariant a step leads to one that meets it: legal `L`, `alloc`, cursors and offsets, both ready bits in order,
the memory in canonical form and inside the banks, the rate not negative, both gain targets in
`[-1, 1]`, and each ramp unit prepared while `fnReady`. -/
def Obligations.StepKeepsInvariant : Prop :=
  ∀ s t : State, s.Inv → step s = .next t → t.Inv

/-- Derived from R20, R22, R106, R108: from every state in which both phases and the increment are in
`[0, TWO_PI)` or NaN, a step leads to such a state, whatever the sample rate is. -/
def Obligations.StepKeepsLfoRange : Prop :=
  ∀ s t : State, LfoOk s.lfo → step s = .next t → LfoOk t.lfo

/-- R32: what the spec gives a value at reset; no command waits and no packet is out (R190). -/
def Obligations.ResetValues : Prop :=
  State.reset.db.ready = false ∧ State.reset.net.ready = false ∧
  State.reset.lfo.rate = 0x00000000#32 ∧ State.reset.lfo.typ = .sine ∧
  State.reset.net.tgt = ⟨0x00000000#32, 0x00000000#32, 0x00000000#32, 0x00000000#32⟩ ∧
  State.reset.port = [] ∧ State.reset.out = []

/-- Derived from R190: the reset event gives those values from any state, drops the waiting commands,
emits nothing; every command but DBPREP and PREPARE then stops. That the packets already emitted stay
on record is the model's choice (log entry 20). -/
def Obligations.ResetEvent : Prop :=
  ∀ s : State,
    (hardReset s).db.ready = false ∧ (hardReset s).net.ready = false ∧
    (hardReset s).lfo.rate = f0 ∧ (hardReset s).lfo.typ = .sine ∧
    (hardReset s).net.tgt = ⟨f0, f0, f0, f0⟩ ∧
    (hardReset s).port = [] ∧ (hardReset s).out = s.out ∧
    ∀ i : Instr, i.wellFormed = true → opcodeOf i ∉ [0x01, 0x10] →
      exec i (hardReset s) = .fault .notPrepared

/-! ## Memory and the delay line (20_memory.md, 40_delay_buffer.md) -/

/-- Derived from R49: the zero-fill is a store of +0.0 to every word below `len`, in whatever order;
here in rising order. -/
def Obligations.ZeroFillIsStores : Prop :=
  ∀ (m : Bank) (len : Nat), bankWf m = true →
    bankZero len m = (List.range len).foldl (fun b i => bankWrite b i f0) m

/-- Derived from R40, R42: two banks in canonical form that read alike are the same data (the canonical
form is the model's own, log entry 6). -/
def Obligations.CanonicalFormIsUnique : Prop :=
  ∀ m m' : Bank, bankWf m = true → bankWf m' = true →
    (∀ i, bankRead m i = bankRead m' i) → m = m'

/-- R51: the delay-line content law. After prepare or clear the line is silent; every command keeps the
law, with the node's combined input put in front of the history when the node is processed. -/
def Obligations.DelayLineContentLaw : Prop :=
  ∀ (i : Instr) (s t : State) (x : Node), s.Inv → exec i s = .next t →
    x.index < t.db.alloc.toNat →
    (opcodeOf i ∈ [0x01, 0x02, 0x10, 0x11] → ContentLaw t.db x []) ∧
    (∀ hist, ContentLaw s.db x hist → ContentLaw t.db x (historyAfter i s x hist))

/-- Derived from R51, R87, R91: in a line that holds `hist`, the read at modulation `m` interpolates the
inputs of `((d + k - 1) mod L) + 1` and `((d + k) mod L) + 1` samples ago: the intended `d + k` and
`d + k + 1` as long as `d + k + 1 <= L`, aliased to newer ones beyond. -/
def Obligations.DelayedReadLaw : Prop :=
  ∀ (q : Nat) (p : Params) (b : Dbe) (x : Node) (m : F32) (hist : List F32),
    DbeRegsOk p b → ContentLaw b x hist →
    let dk := (b.d.get x).toNat + modInt m
    dbRead q b x m =
      interpolate (q + 1) (hist.getD ((dk - 1) % b.len.toNat) f0)
        (hist.getD (dk % b.len.toNat) f0) (modFrac q m)

/-- Derived from R51, R87, R89, R93 and the spec's example L1-6: with a modulation that is +0.0, negative or
NaN the engine is a pure integer delay. With `old` the input of `d` samples ago and `prev` the one
before it: a processed node's lane carries `old`, bit for bit, when `prev` is finite and `old` is
neither a zero nor NaN; for a zero `old` it is +0.0, but -0.0 when both have the sign bit; and it is
NaN when `old` is NaN or `prev` is not finite. -/
def Obligations.PureIntegerDelay : Prop :=
  ∀ (n : BitVec 8) (inA inB modA modB : F32) (s t : State) (x : Node) (hist : List F32),
    s.Inv → ContentLaw s.db x hist → x.index < min n.toNat s.db.alloc.toNat →
    (let m := (Pair.mk modA modB).get x; m = f0 ∨ flt m f0 = true ∨ isNaN m = true) →
    exec (.dbproc n inA inB modA modB) s = .next t →
    let old := hist.getD ((s.db.d.get x).toNat - 1) f0
    let prev := hist.getD ((s.db.d.get x).toNat % s.db.len.toNat) f0
    ∃ p, t.out = s.out ++ [p] ∧
      (isFinite prev = true → isNaN old = false → isZero old = false → lane p x = old) ∧
      (isFinite prev = true → isZero old = true →
        lane p x = if fsign old && fsign prev then 0x80000000#32 else f0) ∧
      (isFinite prev = false ∨ isNaN old = true → isNaN (lane p x) = true)

/-- Derived from R83, R84, R125, R130: the TICK after a CLEAR emits (+0.0, +0.0), whatever its inputs,
the gains and the modulation are. -/
def Obligations.TickAfterClearIsSilent : Prop :=
  ∀ (n : BitVec 8) (xA xB : F32) (s t u : State), s.Inv →
    exec .clear s = .next t → exec (.tick n xA xB) t = .next u →
    u.out = s.out ++ [f0 ++ f0]

/-- Derived from R89: the corner cases of the modulation split. -/
def Obligations.ModulationSplit : Prop :=
  ∀ (q : Nat) (m : F32),
    (isNaN m = true ∨ flt m f0 = true → modInt m = 0 ∧ modFrac q m = f0) ∧
    (fge m f2p23 = true → modFrac q m = f0 ∧ modInt m = min (unitsOf (fmag m) / 2 ^ 149) (2 ^ 32 - 1)) ∧
    (fge m f0 = true → flt m f2p23 = true →
      isFinite (modFrac q m) = true ∧
      fval (modFrac q m) = fval m - (modInt m : Int) * 2 ^ 149 ∧
      0 ≤ fval (modFrac q m) ∧ fval (modFrac q m) < 2 ^ 149)

/-- Derived from R93: with weight +0.0 and a finite second sample the interpolation gives the first sample,
bit for bit unless it is a zero, for which the result is +0.0, but -0.0 when both samples have the
sign bit. If the first sample is NaN or the second is not finite the result is NaN. -/
def Obligations.ZeroWeightInterpolation : Prop :=
  ∀ (q : Nat) (s0 s1 : F32),
    (isFinite s1 = true → isNaN s0 = false → isZero s0 = false → interpolate q s0 s1 f0 = s0) ∧
    (isFinite s1 = true → isZero s0 = true →
      interpolate q s0 s1 f0 = if fsign s0 && fsign s1 then 0x80000000#32 else f0) ∧
    (isFinite s1 = false ∨ isNaN s0 = true → isNaN (interpolate q s0 s1 f0) = true)

/-- Derived from R93 and the spec's counter-instance L1-2: in binary32 the interpolated value can leave
the interval of its two samples. -/
def Obligations.InterpolationCanLeaveTheInterval : Prop :=
  ∀ q : Nat, interpolate q 0x40D19FE9#32 0x40D19FE9#32 0x3F49E9C6#32 = 0x40D19FEA#32

/-! ## The LFO engine (41_lfo_engine.md) -/

/-- Derived from R102: every instance of `SinFn` the model has keeps the contract's parts (b), (c), (d). -/
def Obligations.SinFnContract : Prop :=
  ∀ k : SinKind,
    (∀ a : F32, isFinite a = true →
      isFinite (sinFn k a) = true ∧ fge (sinFn k a) fNeg1 = true ∧ fle (sinFn k a) f1 = true) ∧
    sinFn k f0 = f0 ∧
    (∀ a : F32, isFinite a = false → isNaN (sinFn k a) = true)

/-- R101: the three waveforms, in the order of the floating-point operations of the rule. -/
def Obligations.WaveformFormulas : Prop :=
  ∀ (k : SinKind) (q : Nat) (p : F32),
    lfoValue k q .sine p = fadd (q + 1) fHalf (fmul q fHalf (sinFn k p)) ∧
    lfoValue k q .triangle p = fdiv (q + 1) (fabs (fsub q p fpi)) fpi ∧
    lfoValue k q .sawtooth p = fdiv q p twoPi

/-- Derived from R103, R104, R105: for a phase in `[0, TWO_PI)` the waveform is in `[0, 1]`, for each
waveform and each conforming sine. -/
def Obligations.LfoUnitRange : Prop :=
  ∀ (k : SinKind) (q : Nat) (typ : Waveform) (p : F32),
    fge p f0 = true → flt p twoPi = true →
    fge (lfoValue k q typ p) f0 = true ∧ fle (lfoValue k q typ p) f1 = true

/-- Derived from R103 to R105: the waveform values the spec lists, at 0, HALF_PI, PI and 3 pi / 2 (the
sine's for the spec's recommended instance). -/
def Obligations.WaveformValues : Prop :=
  ∀ q : Nat,
    (lfoValue .correctlyRounded q .sine f0 = fHalf ∧
     lfoValue .correctlyRounded q .sine halfPi = f1 ∧
     lfoValue .correctlyRounded q .sine fpi = 0x3EFFFFFF#32 ∧
     lfoValue .correctlyRounded q .sine 0x4096CBE4#32 = f0) ∧
    (∀ k, lfoValue k q .triangle f0 = f1 ∧ lfoValue k q .triangle halfPi = fHalf ∧
      lfoValue k q .triangle fpi = f0 ∧ lfoValue k q .triangle 0x4096CBE4#32 = 0x3EFFFFFF#32 ∧
      lfoValue k q .sawtooth f0 = f0 ∧ lfoValue k q .sawtooth halfPi = 0x3E800000#32 ∧
      lfoValue k q .sawtooth fpi = fHalf ∧ lfoValue k q .sawtooth 0x4096CBE4#32 = 0x3F400000#32)

/-- Derived from R106: one advance is one conditional subtraction; in normal use it keeps a phase in
`[0, TWO_PI)`; a NaN increment makes the phase NaN. -/
def Obligations.PhaseAdvanceKeepsRange : Prop :=
  ∀ (q : Nat) (ph inc : F32),
    advancePhase q ph inc =
      (if fge (fadd q ph inc) twoPi then fsub (q + 1) (fadd q ph inc) twoPi else fadd q ph inc) ∧
    (fge ph f0 = true → flt ph twoPi = true → fge inc f0 = true → fle inc fpi = true →
      fge (advancePhase q ph inc) f0 = true ∧ flt (advancePhase q ph inc) twoPi = true) ∧
    (isNaN inc = true → isNaN (advancePhase q ph inc) = true)

/-- Derived from R108: for a finite sample rate of at least 2^-125 the increment of a non-negative rate
is in `[0, PI]`, and it is `PI` exactly for a rate of at least half the sample rate, `fs/2` itself
included. (For smaller, subnormal sample rates see the next statement.) -/
def Obligations.PhaseIncSaturates : Prop :=
  ∀ (q : Nat) (rate fs : F32), isFinite fs = true → fge fs 0x01000000#32 = true →
    (fge rate f0 = true →
      fge (phaseInc q rate fs) f0 = true ∧ fle (phaseInc q rate fs) fpi = true) ∧
    (fge rate (fmul q fs fHalf) = true → phaseInc q rate fs = fpi)

/-- R108's own derived claim, for every finite `fs > 0`. Expected to fail: half of a subnormal sample
rate can round up, so that the increment exceeds `PI`. -/
def Obligations.PhaseIncAtMostPiForEveryPositiveFs : Prop :=
  ∀ (q : Nat) (rate fs : F32), isFinite fs = true → fgt fs f0 = true → fge rate f0 = true →
    fge (phaseInc q rate fs) f0 = true ∧ fle (phaseInc q rate fs) fpi = true

/-! ## The ramp port (43_ramp_port.md) -/

/-- R159, R160, R161: the three calls on a `RefRamp` unit, and the lengths `N` that R159 lists. -/
def Obligations.RefRampCalls : Prop :=
  ∀ (p : Params) (q : Nat) (r : RefRamp) (fs init v : F32),
    (let n := BitVec.ofNat 32
        (max 1 (floorSatU32 (fdiv (q + 1) (fmul q p.rampMs fs) f1000)))
     rampPrepare p q fs true init (.ref r) =
        .ref { r with len := n, tgt := init, cur := init, act := init, left := 0, dirty := false } ∧
     rampPrepare p q fs false init (.ref r) =
        .ref { r with len := n, tgt := init, dirty := true }) ∧
    rampSetTarget v true (.ref r) =
      .ref { r with tgt := v, cur := v, act := v, left := 0, dirty := false } ∧
    rampSetTarget v false (.ref r) = .ref { r with tgt := v, dirty := true } ∧
    refRampLen 0x41A00000#32 q f1000 = 20 ∧ refRampLen 0x41A00000#32 q 0x473B8000#32 = 960 ∧
    refRampLen 0x41A00000#32 q 0x472C4400#32 = 882 ∧
    (let r1 := if r.dirty then
        { r with act := r.tgt, dirty := false, left := r.len,
                 step := fdiv (q + 1) (fsub q r.tgt r.cur) (natToF32 r.len.toNat) } else r
     rampNext q (.ref r) = .ref (if r1.left = 0 then r1 else
        { r1 with left := r1.left - 1,
                  cur := if r1.left = 1 then r1.act else fadd (q + 2) r1.cur r1.step }))

/-- Derived from R155 (a), R156, R162: after `setTarget(v, 0)` the unit returns `v` once the glide's bound
is reached, and goes on returning it; for `RefRamp` the bound is `N`. -/
def Obligations.RampReachesItsTarget : Prop :=
  ∀ (q : Nat → Nat) (u : RampUnit) (v : F32) (m : Nat),
    rampPrepared u = true → glideBound u ≤ m →
    rampValue (rampSteps q m (rampSetTarget v false u)) = v

/-- Derived from R151, R152, R156 and, for `RefRamp`, R159 to R161: after `setTarget(v, 1)`, and after
`prepare(fs, 1, v)`, every `next()` up to the next call returns `v`. For a ramp of which only the
contract is known the rules promise the value after a forced `setTarget` for the very next call alone;
that it stays is the model's inference (log entry 12, DEDUCED). -/
def Obligations.ForcedTargetAppliesAtOnce : Prop :=
  ∀ (q : Nat → Nat) (u : RampUnit) (v : F32) (m : Nat), 1 ≤ m →
    rampValue (rampSteps q m (rampSetTarget v true u)) = v ∧
    ∀ (p : Params) (q' : Nat) (fs : F32),
      rampValue (rampSteps q m (rampPrepare p q' fs true v u)) = v

/-- Derived from R155 (b): a conforming ramp never leaves the interval from the value applied before the
`setTarget` to the target. Where a forced value, or the value of a `prepare`, has been set and no
`next` has returned it yet, that it counts as the value applied is the model's choice (log entry 12,
DESIGN CHOICE). -/
def Obligations.ContractRampStaysBetween : Prop :=
  ∀ (q : Nat → Nat) (r : ContractRamp) (v : F32) (m : Nat),
    isNaN r.cur = false → isNaN v = false →
    let y := rampValue (rampSteps q m (rampSetTarget v false (.contract r)))
    (fle r.cur y = true ∧ fle y v = true) ∨ (fle v y = true ∧ fle y r.cur = true)

/-! ## Arithmetic (00_scope.md R8) -/

/-- Derived from R8 (decision D2): the rounding is to nearest, ties to even, and overflows to infinity
exactly from half a unit in the last place above the largest finite value. `n / d` is a magnitude in
units of 2^-149. -/
def Obligations.RoundingIsToNearestEven : Prop :=
  ∀ n d : Nat, 0 < d →
    (roundMag n d = infMag ↔ (2 ^ 25 - 1) * 2 ^ 252 * d ≤ n) ∧
    (roundMag n d < infMag → ∀ m, m < infMag →
      |(unitsOf (roundMag n d) * d : Int) - n| ≤ |(unitsOf m * d : Int) - n| ∧
      (|(unitsOf (roundMag n d) * d : Int) - n| = |(unitsOf m * d : Int) - n| → m ≠ roundMag n d →
        roundMag n d % 2 = 0))

/-- Derived from R8: a finite result of an operation on finite operands is as near to the exact result as
any finite value. -/
def Obligations.ArithmeticIsNearest : Prop :=
  ∀ (q : Nat) (a b x : F32), isFinite a = true → isFinite b = true → isFinite x = true →
    (isFinite (fadd q a b) = true →
      |fval (fadd q a b) - (fval a + fval b)| ≤ |fval x - (fval a + fval b)|) ∧
    (isFinite (fsub q a b) = true →
      |fval (fsub q a b) - (fval a - fval b)| ≤ |fval x - (fval a - fval b)|) ∧
    (isFinite (fmul q a b) = true →
      |fval (fmul q a b) * 2 ^ 149 - fval a * fval b| ≤ |fval x * 2 ^ 149 - fval a * fval b|) ∧
    (isZero b = false → isFinite (fdiv q a b) = true →
      |fval (fdiv q a b) * fval b - fval a * 2 ^ 149| ≤ |fval x * fval b - fval a * 2 ^ 149|)

/-- Derived from R8: comparisons with NaN are false, the two zeros are equal, and an operation with a NaN
operand gives a NaN. -/
def Obligations.NaNAndZeroRules : Prop :=
  (∀ (q : Nat) (a b : F32), isNaN a = true ∨ isNaN b = true →
    flt a b = false ∧ fle a b = false ∧
    isNaN (fadd q a b) = true ∧ isNaN (fsub q a b) = true ∧
    isNaN (fmul q a b) = true ∧ isNaN (fdiv q a b) = true) ∧
  fle 0x80000000#32 f0 = true ∧ fle f0 0x80000000#32 = true ∧ flt 0x80000000#32 f0 = false
end

