-- ==== Sys2Proof/Laws/PerInstr.lean ====
section
/-! SUPPORT. One lemma for each constructor: the word of a command has the opcode of the map and zero
in `rsv` (30_encoding.md R61, R64). -/

namespace Sys2Proof.Laws.EncodedFields

/-- The word of `i` carries the opcode R64 gives `i`, and its reserved field is zero. -/
def Statement (i : Instr) : Prop :=
  (fields (encode i)).op = opcodeOf i ∧ (fields (encode i)).rsv = 0

theorem dbprep (n : BitVec 8) (maxLen : Word) : Statement (.dbprep n maxLen) := by
  rw [Statement, fields_encode]; exact ⟨rfl, rfl⟩
theorem dbclr : Statement .dbclr := by
  rw [Statement, fields_encode]; exact ⟨rfl, rfl⟩
theorem dbsetd (offA offB : Word) : Statement (.dbsetd offA offB) := by
  rw [Statement, fields_encode]; exact ⟨rfl, rfl⟩
theorem dbproc (n : BitVec 8) (inA inB modA modB : F32) :
    Statement (.dbproc n inA inB modA modB) := by
  rw [Statement, fields_encode]; exact ⟨rfl, rfl⟩
theorem prepare (n : BitVec 8) (sampleRate maxTimeMs : F32) :
    Statement (.prepare n sampleRate maxTimeMs) := by
  rw [Statement, fields_encode]; exact ⟨rfl, rfl⟩
theorem clear : Statement .clear := by
  rw [Statement, fields_encode]; exact ⟨rfl, rfl⟩
theorem tick (n : BitVec 8) (xA xB : F32) : Statement (.tick n xA xB) := by
  rw [Statement, fields_encode]; exact ⟨rfl, rfl⟩
theorem setofs (force : Bool) (ms : F32) : Statement (.setofs force ms) := by
  rw [Statement, fields_encode]; exact ⟨rfl, rfl⟩
theorem setdep (force : Bool) (ms : F32) : Statement (.setdep force ms) := by
  rw [Statement, fields_encode]; exact ⟨rfl, rfl⟩
theorem setgain (n : BitVec 8) (force : Bool) (gain : F32) : Statement (.setgain n force gain) := by
  rw [Statement, fields_encode]; exact ⟨rfl, rfl⟩
theorem setrate (hz : F32) : Statement (.setrate hz) := by
  rw [Statement, fields_encode]; exact ⟨rfl, rfl⟩
theorem settype (n : BitVec 8) : Statement (.settype n) := by
  rw [Statement, fields_encode]; exact ⟨rfl, rfl⟩

end Sys2Proof.Laws.EncodedFields
end

