-- ==== Sys2Proof/Tests/Slice0.lean ====
section
/-! SUPPORT. The model's own tests. Expected values come from the spec: the encodings of
30_encoding.md R74, the vectors of 95_test_vectors.md (named V-...), or a rule's own example. After them
one witness for the hypotheses of each obligation that has some, each clause at a boundary value. -/

namespace Sys2Proof.Tests

-- One thread: each `decide +kernel` would hold one, and the file has many.
set_option Elab.async false

open Sys2Proof Sys2Proof.Machine

/-! Helpers. -/

/-- The state a command leads to (the start state where it stops). -/
def after (i : Instr) (s : State) : State :=
  match exec i s with
  | .next t => t
  | _ => s

/-- The command answers a next state. -/
def runs (i : Instr) (s : State) : Bool :=
  match exec i s with
  | .next _ => true
  | _ => false

theorem exec_after {i : Instr} {s : State} (h : runs i s = true) : exec i s = .next (after i s) := by
  unfold runs at h
  unfold after
  cases h' : exec i s with
  | next t => rfl
  | fault r => rw [h'] at h; cases h
  | refused r => rw [h'] at h; cases h

/-- The buffer engine with the registers of V-DB-4's end state and the given banks. -/
def dbWith (buf : Memory) : State :=
  { State.reset with
    db := { ready := true, len := 8, alloc := 2, w := ⟨2, 2⟩, d := ⟨2, 2⟩, buf := buf } }

/-- 9, 10, 3, 4, 5, 6, 7, 8 (V-DB-4). -/
def bank4 : Bank :=
  [(0, 0x41100000#32), (1, 0x41200000#32), (2, 0x40400000#32), (3, 0x40800000#32),
   (4, 0x40A00000#32), (5, 0x40C00000#32), (6, 0x40E00000#32), (7, 0x41000000#32)]

/-- The end state of V-DB-4. -/
def db4 : State := dbWith ⟨bank4, bank4⟩

/-- A settled `RefRamp` unit at `v` with `N = n`. -/
def settled (v : F32) (n : Word) : RefRamp :=
  { cur := v, tgt := v, act := v, step := 0, left := 0, dirty := false, len := n }

/-- That state with a prepared network at 1000 Hz, its ramps settled at +0.0 (R159: `N = 20`). -/
def net4 : State :=
  { db4 with
    lfo := { db4.lfo with ph := ⟨f0, halfPi⟩ }
    net := { db4.net with
      ready := true, fs := f1000,
      ramp := ⟨.ref (settled f0 20), .ref (settled f0 20), .ref (settled f0 20), .ref (settled f0 20)⟩ } }

/-- A conforming ramp at +0.0 whose glides take no call. -/
def instant : ContractRamp := { cur := 0, start := 0, tgt := 0, left := 0, dur := 0 }

/-! The terms the decoder never gives (30_encoding.md R68, R69). -/

theorem test_wellFormed_setgain : (Instr.setgain 2 false f1).wellFormed = false := by decide
theorem test_wellFormed_settype : (Instr.settype 3).wellFormed = false := by decide
theorem test_setgain_node_2_refused :
    decode 0x220200003F000000000000000000000000000000#160 = .illegal .reservedFieldValue := by decide
theorem test_settype_3_refused :
    decode 0x2403000000000000000000000000000000000000#160 = .illegal .reservedFieldValue := by decide

/-! Decoding: the words of R74 and V-EN-2, one or more for each command. -/

theorem test_decode_dbprep :
    decode 0x0102000000000008000000000000000000000000#160 = .cmd (.dbprep 2 8) := by decide
theorem test_decode_dbclr :
    decode 0x0200000000000000000000000000000000000000#160 = .cmd .dbclr := by decide
theorem test_decode_dbsetd :
    decode 0x03000000FFFFFFFB000000640000000000000000#160 =
      .cmd (.dbsetd (BitVec.ofInt 32 (-5)) 100) := by decide
theorem test_decode_dbsetd_extremes :
    decode 0x03000000800000007FFFFFFF0000000000000000#160 =
      .cmd (.dbsetd (BitVec.ofInt 32 (-2147483648)) 2147483647) := by decide
theorem test_decode_dbproc :
    decode 0x040200003F8000003F800000000000003E800000#160 =
      .cmd (.dbproc 2 f1 f1 f0 0x3E800000#32) := by decide
theorem test_decode_prepare :
    decode 0x10020000447A000040E000000000000000000000#160 =
      .cmd (.prepare 2 f1000 0x40E00000#32) := by decide
theorem test_decode_clear :
    decode 0x1100000000000000000000000000000000000000#160 = .cmd .clear := by decide
theorem test_decode_tick :
    decode 0x120200003F8000003F8000000000000000000000#160 = .cmd (.tick 2 f1 f1) := by decide
theorem test_decode_tick_255 :
    decode 0x12FF000000000000000000000000000000000000#160 = .cmd (.tick 255 f0 f0) := by decide
theorem test_decode_setofs :
    decode 0x2000000140400000000000000000000000000000#160 =
      .cmd (.setofs true 0x40400000#32) := by decide
theorem test_decode_setdep :
    decode 0x2100000040000000000000000000000000000000#160 =
      .cmd (.setdep false 0x40000000#32) := by decide
theorem test_decode_setgain :
    decode 0x2201000140200000000000000000000000000000#160 =
      .cmd (.setgain 1 true 0x40200000#32) := by decide
theorem test_decode_setrate :
    decode 0x23000000437A0000000000000000000000000000#160 = .cmd (.setrate 0x437A0000#32) := by decide
theorem test_decode_settype :
    decode 0x2402000000000000000000000000000000000000#160 = .cmd (.settype 2) := by decide

theorem test_decode_clear_with_a3 :
    decode 0x1100000000000000000000000000000000000001#160 = .illegal .nonZeroReservedField := by decide
theorem test_decode_tick_with_f :
    decode 0x120200013F8000003F8000000000000000000000#160 = .illegal .nonZeroReservedField := by decide
theorem test_decode_rsv_bit_129 :
    decode 0x2000000240400000000000000000000000000000#160 = .illegal .nonZeroReservedField := by decide
theorem test_decode_setrate_with_n :
    decode 0x23010000437A0000000000000000000000000000#160 = .illegal .nonZeroReservedField := by decide
theorem test_decode_opcode_05 :
    decode 0x0500000000000000000000000000000000000000#160 = .illegal .reservedOpcode := by decide
theorem test_decode_opcode_ff :
    decode 0xFF00000000000000000000000000000000000000#160 = .illegal .reservedOpcode := by decide

/-- Bit 0 of the opcode table is bit 0 of the command word (R60). -/
theorem test_decodeTableWord :
    decodeTableWord 160 0x040200003F8000003F800000000000003E800000 =
      some (.dbproc 2 f1 f1 f0 0x3E800000#32) := by decide

/-- The encoder gives the words of R74. -/
theorem test_encode :
    encode (.dbsetd (BitVec.ofInt 32 (-5)) 100) =
      0x03000000FFFFFFFB000000640000000000000000#160 ∧
    encode (.setgain 0 true fNeg1) = 0x22000001BF800000000000000000000000000000#160 := by decide

/-! One step. -/

/-- V-EN-3: from reset the zero word is discarded, no fault. -/
theorem test_step_discards : step (State.reset.withFetchWord 160 0) = .next State.reset := rfl

/-- Program P5: from reset SETGAIN is a contract violation. -/
theorem test_step_unprepared :
    step (State.reset.withFetchWord 160 0x220000013F000000000000000000000000000000) =
      .fault .notPrepared := rfl

/-- R82's example, run as the first command after reset. -/
theorem test_step_runs :
    step (State.reset.withFetchWord 160 0x0102000000000008000000000000000000000000) =
      exec (.dbprep 2 8) State.reset := rfl

/-- V-DB-1. -/
theorem test_dbprep_low :
    let t := after (.dbprep 5 0) State.reset
    t.db.len = 2 ∧ t.db.alloc = 2 ∧ t.db.d = ⟨1, 1⟩ ∧ t.db.ready = true := by decide +kernel
theorem test_dbprep_high :
    let t := after (.dbprep 1 70000) State.reset
    t.db.len = 65536 ∧ t.db.alloc = 1 := by decide +kernel

/-- V-DB-8. -/
theorem test_dbclr :
    let t := after .dbclr db4
    t.db.buf = ⟨[], []⟩ ∧ t.db.w = ⟨2, 2⟩ ∧ t.db.d = ⟨2, 2⟩ := by decide +kernel

/-- V-DB-2. -/
theorem test_dbsetd_saturates :
    (after (.dbsetd (BitVec.ofInt 32 (-5)) 100) db4).db.d = ⟨1, 7⟩ := by decide +kernel
theorem test_dbsetd_extremes :
    (after (.dbsetd 0x80000000#32 0x7FFFFFFF#32) db4).db.d = ⟨1, 7⟩ := by decide +kernel

/-- V-DB-5, the row `m = 2.75`: node A reads 6.25, node B 9.0; the stores follow the reads. -/
theorem test_dbproc_fraction :
    let t := after (.dbproc 2 0x41300000#32 0x41300000#32 0x40300000#32 f0) db4
    t.out = [0x40C8000041100000#64] ∧ t.db.w = ⟨3, 3⟩ ∧
      memRead t.db.buf .a 2 = 0x41300000#32 := by decide +kernel
/-- V-DB-5, the row `m = 6.0`: `i0 = w`, the word read is the one stored before. -/
theorem test_dbproc_reads_before_write :
    let t := after (.dbproc 1 0x41300000#32 f0 0x40C00000#32 f0) db4
    t.out = [0x4040000000000000#64] ∧ t.db.w = ⟨3, 2⟩ := by decide +kernel

/-- V-FN-1, without the ramps. -/
theorem test_prepare :
    let t := after (.prepare 2 f1000 0x40E00000#32) State.reset
    t.db.len = 8 ∧ t.db.alloc = 2 ∧ t.db.w = ⟨0, 0⟩ ∧ t.db.d = ⟨1, 1⟩ ∧
      t.lfo.ph = ⟨f0, halfPi⟩ ∧ t.lfo.inc = f0 ∧ t.net.fs = f1000 ∧
      t.db.ready = true ∧ t.net.ready = true := by decide +kernel
/-- V-FN-1 and R159: 48 kHz, 50 ms; the ramp length of the default 20 ms. -/
theorem test_prepare_48k :
    let t := after (.prepare 2 0x473B8000#32 0x42480000#32) State.reset
    t.db.len = 2401 ∧
      t.net.ramp.ofs = .ref (settled f0 960) := by decide +kernel

/-- R125. -/
theorem test_clear :
    let t := after .clear { net4 with net := { net4.net with fb := ⟨f1, f1⟩ } }
    t.db.buf = ⟨[], []⟩ ∧ t.net.fb = ⟨f0, f0⟩ ∧ t.db.w = ⟨2, 2⟩ := by decide +kernel

/-- R130 on the state of V-DB-4, no modulation and no feedback: both nodes read the 9.0 of two samples
ago; the input goes to the cursor; with `inc = +0.0` the phases stay. -/
theorem test_tick :
    let t := after (.tick 2 f1 f1) net4
    t.out = [0x4110000041100000#64] ∧ t.net.fb = ⟨0x41100000#32, 0x41100000#32⟩ ∧
      memRead t.db.buf .b 2 = f1 ∧ t.lfo.ph = ⟨f0, halfPi⟩ := by decide +kernel
/-- V-FN-6's last TICK: with `fb[1] = 4`, gain B 0.5 and inputs 0, both nodes store 2.0. -/
theorem test_tick_feedback :
    let r := { net4.net.ramp with gb := .ref (settled fHalf 4) }
    let m := { net4.net with fb := ⟨0x40800000#32, 0x40800000#32⟩, ramp := r }
    let t := after (.tick 2 f0 f0) { net4 with net := m }
    memRead t.db.buf .a 2 = 0x40000000#32 ∧ memRead t.db.buf .b 2 = 0x40000000#32 := by
  decide +kernel

/-- V-FN-3. -/
theorem test_setofs :
    (after (.setofs true 0x40400000#32) net4).net.tgt.ofs = 0x40000000#32 := by decide +kernel
theorem test_setofs_zero :
    (after (.setofs false f0) net4).net.tgt.ofs = fNeg1 := by decide +kernel
theorem test_setdep :
    (after (.setdep true 0x40000000#32) net4).net.tgt.dep = 0x40000000#32 := by decide +kernel
theorem test_setdep_nan :
    (after (.setdep false 0x7FC00000#32) net4).net.tgt.dep = f0 := by decide +kernel
theorem test_setgain :
    (after (.setgain 1 true 0x40200000#32) net4).net.tgt = ⟨f0, f0, f0, f1⟩ := by decide +kernel
theorem test_setgain_inf :
    (after (.setgain 0 false 0xFF800000#32) net4).net.tgt = ⟨f0, f0, fNeg1, f0⟩ := by decide +kernel

/-- V-LF-3. -/
theorem test_setrate :
    (after (.setrate 0x437A0000#32) net4).lfo.inc = halfPi := by decide +kernel
theorem test_setrate_saturates :
    let t := after (.setrate 0x44160000#32) net4
    t.lfo.rate = 0x44160000#32 ∧ t.lfo.inc = fpi := by decide +kernel

/-- V-LF-5. -/
theorem test_settype : (after (.settype 1) net4).lfo.typ = .triangle := by decide +kernel

/-- V-LF-4: two advances by PI from HALF_PI. -/
theorem test_advance :
    advancePhase 0 (advancePhase 0 halfPi fpi) fpi = 0x3FC90FDC#32 := by decide +kernel

/-- V-RP-1: the first step of a glide from 0 to 2 in four steps. -/
theorem test_refRamp_next :
    rampValue (rampNext 0 (rampSetTarget 0x40000000#32 false (.ref (settled f0 4)))) = fHalf := by decide +kernel

/-! Witnesses: states and operands that meet the hypotheses of the obligations. -/

theorem net4_inv : net4.Inv := by decide +kernel
theorem db4_inv : db4.Inv := by decide +kernel

theorem witness_DecodeOfEncode :
    (Instr.setgain 1 true f1).wellFormed = true ∧ (Instr.settype 2).wellFormed = true ∧
      (Instr.dbproc 255 f1 f1 f0 f0).wellFormed = true := by decide

theorem witness_EncodeOfDecode :
    decode 0x22000001BF800000000000000000000000000000#160 = .cmd (.setgain 0 true fNeg1) := by decide

/-- One word for each of the three reasons, as 0x00 (no opcode), 0x24 with `n = 3` and with `F`. -/
theorem witness_IllegalWordsByReason :
    decode 0#160 = .illegal .reservedOpcode ∧
    decode 0x2400000100000000000000000000000000000000#160 = .illegal .nonZeroReservedField ∧
    decode 0x2403000000000000000000000000000000000000#160 = .illegal .reservedFieldValue := by decide

theorem witness_IllegalCommandIsDiscarded :
    (State.reset.withFetchWord 160 0).port = 0#160 :: [] ∧
      decode 0#160 = .illegal .reservedOpcode := by decide +kernel

theorem witness_ReservedTermsAreDiscarded :
    (Instr.setgain 2 true f1).wellFormed = false ∧ (Instr.setgain 255 false f0).wellFormed = false ∧
      (Instr.settype 3).wellFormed = false ∧ (Instr.settype 255).wellFormed = false := by decide

theorem witness_StepRunsTheDecodedCommand :
    (State.reset.withFetchWord 160 0x1100000000000000000000000000000000000000).port =
      0x1100000000000000000000000000000000000000#160 :: [] ∧
    decode 0x1100000000000000000000000000000000000000#160 = .cmd .clear ∧
    State.reset.port = [] := by decide +kernel

/-- The first and the last opcode of each column of R173, and both values of each bit. -/
theorem witness_UnreadyCommandsFault :
    opcodeOf (.dbprep 2 8) ∈ ([0x01, 0x10] : List (BitVec 8)) ∧
    opcodeOf (.prepare 2 f1000 f1) ∈ ([0x01, 0x10] : List (BitVec 8)) ∧
    opcodeOf .dbclr ∈ ([0x02, 0x03, 0x04] : List (BitVec 8)) ∧
    opcodeOf (.dbproc 0 f0 f0 f0 f0) ∈ ([0x02, 0x03, 0x04] : List (BitVec 8)) ∧
    State.reset.db.ready = false ∧
    opcodeOf .clear ∈ ([0x11, 0x12, 0x20, 0x21, 0x22, 0x23, 0x24] : List (BitVec 8)) ∧
    opcodeOf (.settype 2) ∈ ([0x11, 0x12, 0x20, 0x21, 0x22, 0x23, 0x24] : List (BitVec 8)) ∧
    (Instr.settype 2).wellFormed = true ∧ State.reset.net.ready = false ∧
    db4.net.ready = false := by decide +kernel

theorem witness_CommandsStopOnlyUnready :
    (State.reset.Inv ∧ exec .dbclr State.reset = .fault .notPrepared) ∧
    (db4.Inv ∧ exec (.tick 2 f1 f1) db4 = .fault .notPrepared) ∧
    (net4.Inv ∧ net4.net.ready = true) :=
  ⟨⟨by decide +kernel, rfl⟩, ⟨db4_inv, rfl⟩, ⟨net4_inv, rfl⟩⟩

theorem witness_ReadyBitsOnlyRise :
    (exec (.dbprep 0 2) State.reset = .next (after (.dbprep 0 2) State.reset) ∧
      State.reset.db.ready = false ∧ (after (.dbprep 0 2) State.reset).db.ready = true) ∧
    (exec (.prepare 0 f1 f0) db4 = .next (after (.prepare 0 f1 f0) db4) ∧
      db4.net.ready = false ∧ (after (.prepare 0 f1 f0) db4).net.ready = true) ∧
    (step net4 = .next net4 ∧ net4.db.ready = true ∧ net4.net.ready = true) :=
  ⟨⟨exec_after (by decide +kernel), by decide +kernel⟩,
    ⟨exec_after (by decide +kernel), by decide +kernel⟩, rfl, rfl, rfl⟩

/-- Also with the least and the greatest legal arguments of 00_scope.md R6. -/
theorem witness_DbprepResult :
    ParamsLegal State.reset.params ∧
    ParamsLegal { Params.default with maxLen := 2, rampMs := 1#32 } ∧
    ParamsLegal { Params.default with maxLen := 2 ^ 31, sin := .anyConforming } := by decide +kernel

theorem witness_DbclrResult : State.reset.db.ready = false ∧ db4.db.ready = true := by decide +kernel

theorem witness_DbsetdResult :
    State.reset.db.ready = false ∧ db4.db.ready = true ∧ 2 ≤ db4.db.len.toNat ∧
    2 ≤ (after (.dbprep 2 0) State.reset).db.len.toNat := by decide +kernel

theorem witness_DbReadFormula : 0 < db4.db.len.toNat := by decide +kernel

theorem witness_DbprocResult :
    State.reset.db.ready = false ∧
    db4.db.ready = true ∧ DbeRegsOk db4.params db4.db ∧ Memory.wf db4.db.buf = true := by
  decide +kernel

theorem witness_PrepareResult :
    ParamsLegal State.reset.params ∧
    ParamsLegal { Params.default with baseDelay := 5, ramp := .anyConforming } := by decide +kernel

theorem witness_ClearResult : db4.net.ready = false ∧ net4.net.ready = true := by decide +kernel

theorem witness_TickResult :
    db4.net.ready = false ∧
    net4.net.ready = true ∧ DbeRegsOk net4.params net4.db ∧ Memory.wf net4.db.buf = true := by
  decide +kernel

theorem witness_SetofsResult : db4.net.ready = false ∧ net4.net.ready = true := by decide +kernel
theorem witness_SetdepResult : db4.net.ready = false ∧ net4.net.ready = true := by decide +kernel
theorem witness_SetrateResult : db4.net.ready = false ∧ net4.net.ready = true := by decide +kernel

/-- The operands 0 and 1 meet the clauses by themselves. -/
theorem witness_SetgainResult : db4.net.ready = false ∧ net4.net.ready = true := by decide +kernel
theorem witness_SettypeResult : db4.net.ready = false ∧ net4.net.ready = true := by decide +kernel

theorem witness_WriteSets :
    exec (.setrate f1) net4 = .next (after (.setrate f1) net4) ∧
      opcodeOf (.setrate f1) ∉ ([0x01, 0x10] : List (BitVec 8)) :=
  ⟨exec_after (by decide +kernel), by decide⟩

/-- The word after the cursor, the cursor's word of a skipped node, and the last word of a bank. -/
theorem witness_MemoryFrame :
    ParamsLegal net4.params ∧ Memory.wf net4.db.buf = true ∧
    exec (.tick 1 f1 f1) net4 = .next (after (.tick 1 f1 f1) net4) ∧
    ¬ (Node.a.index < min (1#8).toNat net4.db.alloc.toNat ∧ 3 = (net4.db.w.get .a).toNat) ∧
    ¬ (Node.b.index < min (1#8).toNat net4.db.alloc.toNat ∧ 2 = (net4.db.w.get .b).toNat) ∧
    exec (.dbprep 2 8) net4 = .next (after (.dbprep 2 8) net4) ∧
    ¬ (Node.a.index < min (2#8).toNat 2 ∧ 8 < min (max (8#32).toNat 2) net4.params.maxLen) :=
  ⟨by decide +kernel, by decide +kernel, exec_after (by decide +kernel), by decide +kernel,
    by decide +kernel, exec_after (by decide +kernel), by decide +kernel⟩

theorem witness_OnePacketPerProcessingCommand :
    exec (.dbproc 0 f1 f1 f0 f0) db4 = .next (after (.dbproc 0 f1 f1 f0 f0) db4) ∧
      exec .dbclr db4 = .next (after .dbclr db4) :=
  ⟨exec_after (by decide +kernel), exec_after (by decide +kernel)⟩

theorem witness_SkippedNodeIsUntouched :
    min (1#8).toNat net4.db.alloc.toNat ≤ Node.b.index ∧
    min (0#8).toNat net4.db.alloc.toNat ≤ Node.a.index ∧
    exec (.dbproc 1 f1 f1 f0 f0) net4 = .next (after (.dbproc 1 f1 f1 f0 f0) net4) ∧
    exec (.tick 1 f1 f1) net4 = .next (after (.tick 1 f1 f1) net4) :=
  ⟨by decide +kernel, by decide +kernel, exec_after (by decide +kernel),
    exec_after (by decide +kernel)⟩

theorem witness_ChannelCountIsClamped :
    db4.db.alloc.toNat ≤ (2#8).toNat ∧ db4.db.alloc.toNat ≤ (255#8).toNat := by decide +kernel

/-- Both nodes: the other node's bank and operands differ. -/
theorem witness_NodesDoNotSeeEachOther :
    let s := dbWith ⟨bank4, bank4⟩
    let sA := dbWith ⟨bank4, []⟩
    let sB := dbWith ⟨[], bank4⟩
    (s.db.len = sA.db.len ∧ s.db.alloc = sA.db.alloc ∧ s.free = sA.free ∧
      s.db.w.get .a = sA.db.w.get .a ∧ s.db.d.get .a = sA.db.d.get .a ∧
      s.db.buf.get .a = sA.db.buf.get .a ∧ s.db.buf.get .b ≠ sA.db.buf.get .b ∧
      (Pair.mk f1 f0).get .a = (Pair.mk f1 f1).get .a ∧
      (Pair.mk f0 f0).get .a = (Pair.mk f0 f1).get .a ∧
      exec (.dbproc 2 f1 f0 f0 f0) s = .next (after (.dbproc 2 f1 f0 f0 f0) s) ∧
      exec (.dbproc 2 f1 f1 f0 f1) sA = .next (after (.dbproc 2 f1 f1 f0 f1) sA)) ∧
    (s.db.len = sB.db.len ∧ s.db.alloc = sB.db.alloc ∧ s.free = sB.free ∧
      s.db.w.get .b = sB.db.w.get .b ∧ s.db.d.get .b = sB.db.d.get .b ∧
      s.db.buf.get .b = sB.db.buf.get .b ∧ s.db.buf.get .a ≠ sB.db.buf.get .a ∧
      (Pair.mk f1 f0).get .b = (Pair.mk f0 f0).get .b ∧
      (Pair.mk f0 f0).get .b = (Pair.mk f1 f0).get .b ∧
      exec (.dbproc 2 f0 f0 f1 f0) sB = .next (after (.dbproc 2 f0 f0 f1 f0) sB)) :=
  ⟨⟨rfl, rfl, rfl, rfl, rfl, rfl, by decide, rfl, rfl, exec_after (by decide +kernel),
      exec_after (by decide +kernel)⟩,
    ⟨rfl, rfl, rfl, rfl, rfl, rfl, by decide, rfl, rfl, exec_after (by decide +kernel)⟩⟩

theorem witness_StepKeepsInvariant :
    net4.Inv ∧ step net4 = .next net4 ∧
    (net4.withFetchWord 160 0x1100000000000000000000000000000000000000).Inv ∧
    step (net4.withFetchWord 160 0x1100000000000000000000000000000000000000) =
      .next (after .clear net4) := ⟨net4_inv, rfl, by decide +kernel, rfl⟩

/-- Also with a NaN phase and increment. -/
theorem witness_StepKeepsLfoRange :
    LfoOk net4.lfo ∧ step net4 = .next net4 ∧
    LfoOk { net4.lfo with ph := ⟨0x7FC00000#32, 0x40C90FDA#32⟩, inc := 0x7FC00000#32 } :=
  ⟨by decide +kernel, rfl, by decide +kernel⟩

theorem witness_ResetEvent :
    (Instr.setgain 1 true f1).wellFormed = true ∧
      opcodeOf (.setgain 1 true f1) ∉ ([0x01, 0x10] : List (BitVec 8)) := by decide

theorem witness_ZeroFillIsStores : bankWf bank4 = true := by decide

theorem witness_CanonicalFormIsUnique :
    bankWf bank4 = true ∧ bankWf (bankWrite bank4 3 0x40800000#32) = true ∧
      ∀ i, bankRead bank4 i = bankRead (bankWrite bank4 3 0x40800000#32) i :=
  ⟨by decide, by decide, fun _ => rfl⟩

/-- The inputs of V-DB-4, newest first. -/
def hist4 : List F32 :=
  [0x41200000#32, 0x41100000#32, 0x41000000#32, 0x40E00000#32, 0x40C00000#32, 0x40A00000#32,
   0x40800000#32, 0x40400000#32, 0x40000000#32, 0x3F800000#32]

theorem contentLaw4 (x : Node) : ContentLaw db4.db x hist4 := by
  intro j h1 h2
  have : j ≤ 8 := h2
  cases x <;> interval_cases j <;> rfl

theorem witness_DelayLineContentLaw :
    db4.Inv ∧ exec (.dbproc 2 f1 f1 f0 f0) db4 = .next (after (.dbproc 2 f1 f1 f0 f0) db4) ∧
    Node.b.index < (after (.dbproc 2 f1 f1 f0 f0) db4).db.alloc.toNat ∧
    ContentLaw db4.db .b hist4 ∧
    exec .dbclr db4 = .next (after .dbclr db4) ∧
    opcodeOf .dbclr ∈ ([0x01, 0x02, 0x10, 0x11] : List (BitVec 8)) :=
  ⟨db4_inv, exec_after (by decide +kernel), by decide +kernel, contentLaw4 .b,
    exec_after (by decide +kernel), by decide⟩

theorem witness_DelayedReadLaw : DbeRegsOk db4.params db4.db ∧ ContentLaw db4.db .a hist4 :=
  ⟨by decide +kernel, contentLaw4 .a⟩

/-- Inputs for the other clauses: node B's line is all +0.0, or its one input is infinite. -/
theorem contentLaw_silent (x : Node) : ContentLaw (dbWith ⟨[], []⟩).db x [] := by
  intro j h1 h2
  have : j ≤ 8 := h2
  cases x <;> interval_cases j <;> rfl

/-- The newest input is 1.0, the next 0x7F800000, infinity: with `d = 1` the one before is not finite. -/
def histInf : List F32 := [f1, 0x7F800000#32]

def dbInf : State :=
  let s := dbWith ⟨[(0, 0x7F800000#32), (1, f1)], [(0, 0x7F800000#32), (1, f1)]⟩
  { s with db := { s.db with d := ⟨1, 1⟩ } }

theorem contentLawInf (x : Node) : ContentLaw dbInf.db x histInf := by
  intro j h1 h2
  have : j ≤ 8 := h2
  cases x <;> interval_cases j <;> rfl

/-- One state for each clause: an input that is no zero; a zero; a finite one after an infinity; and the
three kinds of modulation, the least negative value and a NaN among them. -/
theorem witness_PureIntegerDelay :
    (db4.Inv ∧ ContentLaw db4.db .b hist4 ∧ Node.b.index < min (2#8).toNat db4.db.alloc.toNat ∧
      flt ((Pair.mk f0 0x80000001#32).get .b) f0 = true ∧
      exec (.dbproc 2 f1 f1 f0 0x80000001#32) db4 =
        .next (after (.dbproc 2 f1 f1 f0 0x80000001#32) db4) ∧
      isFinite (hist4.getD ((db4.db.d.get .b).toNat % db4.db.len.toNat) f0) = true ∧
      isNaN (hist4.getD ((db4.db.d.get .b).toNat - 1) f0) = false ∧
      isZero (hist4.getD ((db4.db.d.get .b).toNat - 1) f0) = false) ∧
    ((dbWith ⟨[], []⟩).Inv ∧ ContentLaw (dbWith ⟨[], []⟩).db .a [] ∧
      isZero (([] : List F32).getD 1 f0) = true ∧ (Pair.mk f0 f0).get .a = f0) ∧
    (dbInf.Inv ∧ ContentLaw dbInf.db .a histInf ∧ isNaN 0x7FC00000#32 = true ∧
      exec (.dbproc 1 f1 f1 0x7FC00000#32 f0) dbInf =
        .next (after (.dbproc 1 f1 f1 0x7FC00000#32 f0) dbInf) ∧
      isFinite (histInf.getD ((dbInf.db.d.get .a).toNat % dbInf.db.len.toNat) f0) = false) :=
  ⟨⟨db4_inv, contentLaw4 .b, by decide +kernel, by decide, exec_after (by decide +kernel),
      by decide +kernel, by decide +kernel, by decide +kernel⟩,
    ⟨by decide +kernel, contentLaw_silent .a, by decide, rfl⟩,
    ⟨by decide +kernel, contentLawInf .a, by decide, exec_after (by decide +kernel),
      by decide +kernel⟩⟩

theorem witness_TickAfterClearIsSilent :
    net4.Inv ∧ exec .clear net4 = .next (after .clear net4) ∧
    exec (.tick 2 f1 f1) (after .clear net4) = .next (after (.tick 2 f1 f1) (after .clear net4)) :=
  ⟨net4_inv, exec_after (by decide +kernel), exec_after (by decide +kernel)⟩

/-- NaN; the least negative value; 2^23 and infinity; -0.0 and the greatest value below 2^23. -/
theorem witness_ModulationSplit :
    isNaN 0x7FC00000#32 = true ∧ flt 0x80000001#32 f0 = true ∧
    fge f2p23 f2p23 = true ∧ fge 0x7F800000#32 f2p23 = true ∧
    (fge 0x80000000#32 f0 = true ∧ flt 0x80000000#32 f2p23 = true) ∧
    (fge 0x4AFFFFFF#32 f0 = true ∧ flt 0x4AFFFFFF#32 f2p23 = true) := by decide

/-- The greatest finite value and infinity; -0.0; infinity and a NaN for the last clause. -/
theorem witness_ZeroWeightInterpolation :
    (isFinite 0x7F7FFFFF#32 = true ∧ isNaN 0x7F800000#32 = false ∧ isZero 0x7F800000#32 = false) ∧
    (isFinite 0x80000000#32 = true ∧ isZero 0x80000000#32 = true) ∧
    (isFinite 0x7F800000#32 = false ∧ isNaN 0x7F800001#32 = true) := by decide

theorem witness_SinFnContract :
    isFinite 0x7F7FFFFF#32 = true ∧ isFinite 0x7F800000#32 = false := by decide

/-- The ends of `[0, TWO_PI)`. -/
theorem witness_LfoUnitRange :
    (fge 0x80000000#32 f0 = true ∧ flt 0x80000000#32 twoPi = true) ∧
    (fge 0x40C90FDA#32 f0 = true ∧ flt 0x40C90FDA#32 twoPi = true) := by decide

theorem witness_PhaseAdvanceKeepsRange :
    (fge 0x40C90FDA#32 f0 = true ∧ flt 0x40C90FDA#32 twoPi = true ∧ fge fpi f0 = true ∧
      fle fpi fpi = true) ∧ isNaN 0x7F800001#32 = true := by decide

/-- The least sample rate of the statement, an infinite rate, and the rate `fs/2` itself. -/
theorem witness_PhaseIncSaturates :
    isFinite 0x01000000#32 = true ∧ fge 0x01000000#32 0x01000000#32 = true ∧
    fge 0x7F800000#32 f0 = true ∧ fge 0x7F800000#32 (fmul 0 0x01000000#32 fHalf) = true ∧
    fge 0x00800000#32 (fmul 0 0x01000000#32 fHalf) = true ∧
    fgt 0x00800000#32 (fmul 0 0x01000000#32 fHalf) = false := by
  decide +kernel

theorem witness_PhaseIncAtMostPiForEveryPositiveFs :
    isFinite 3#32 = true ∧ fgt 3#32 f0 = true ∧ fge f1 f0 = true := by decide

theorem witness_RampReachesItsTarget :
    rampPrepared (.ref (settled f0 1)) = true ∧ glideBound (.ref (settled f0 1)) ≤ 1 ∧
    rampPrepared (.contract instant) = true ∧ glideBound (.contract instant) ≤ 1 := by decide

theorem witness_ForcedTargetAppliesAtOnce : 1 ≤ 1 := le_rfl

theorem witness_ContractRampStaysBetween :
    isNaN 0xFF800000#32 = false ∧ isNaN 0x7F7FFFFF#32 = false := by decide

/-- One third of a unit rounds to zero; the threshold of overflow is met by `n` itself. -/
theorem witness_RoundingIsToNearestEven : 0 < 3 ∧ roundMag 1 3 < infMag := by decide +kernel

theorem witness_ArithmeticIsNearest :
    isFinite f1 = true ∧ isFinite 0x007FFFFF#32 = true ∧ isZero 0x00000001#32 = false ∧
    isFinite (fadd 0 f1 0x007FFFFF#32) = true ∧ isFinite (fsub 0 f1 0x007FFFFF#32) = true ∧
    isFinite (fmul 0 f1 0x007FFFFF#32) = true ∧ isFinite (fdiv 0 0x007FFFFF#32 1#32) = true := by
  decide +kernel

theorem witness_NaNAndZeroRules : isNaN 0x7F800001#32 = true ∧ isNaN 0xFFFFFFFF#32 = true := by
  decide

end Sys2Proof.Tests
end

section
/-! SUPPORT. The one rounding (00_scope.md R8) is to nearest, ties to even: the ratio lies between the
midpoints from the rounded value to its two neighbours, and on a midpoint only when the rounded value
is even. -/

namespace Sys2Proof.Machine

/-- The magnitude bits `k * 2^23 + s` that `roundMag` packs hold the significand `s` scaled by `2^k`;
`s = 2^24` carries into the exponent. -/
theorem unitsOf_packed {k s : Nat} (hs : s ≤ 2 ^ 24) (hk : 0 < k → 2 ^ 23 ≤ s) :
    unitsOf (k * 2 ^ 23 + s) = s * 2 ^ k := by
  rcases Nat.eq_or_lt_of_le hs with rfl | hlt
  · have h1 : (k * 2 ^ 23 + 2 ^ 24) / 2 ^ 23 = k + 2 := by omega
    have h2 : (k * 2 ^ 23 + 2 ^ 24) % 2 ^ 23 = 0 := by omega
    rw [unitsOf, h1, h2, if_neg (by omega), show k + 2 - 1 = k + 1 by omega, pow_succ]
    ring
  · rcases Nat.eq_zero_or_pos k with rfl | hpos
    · simp [unitsOf_small hlt]
    · have := hk hpos
      have h1 : (k * 2 ^ 23 + s) / 2 ^ 23 = k + 1 := by omega
      have h2 : (k * 2 ^ 23 + s) % 2 ^ 23 = s - 2 ^ 23 := by omega
      rw [unitsOf, h1, h2, if_neg (by omega), show 2 ^ 23 + (s - 2 ^ 23) = s by omega,
        Nat.add_sub_cancel]

/-- The ratio has at most 24 bits above the dropped ones, and exactly 24 when a bit is dropped. -/
theorem ratio_bounds (n : Nat) {d : Nat} (hd : 0 < d) :
    n < 2 ^ 24 * (d * 2 ^ dropBits (n / d)) ∧
    (0 < dropBits (n / d) → 2 ^ 23 * (d * 2 ^ dropBits (n / d)) ≤ n) := by
  have assoc (c k : Nat) : c * (d * 2 ^ k) = c * 2 ^ k * d := by ring
  rw [assoc, assoc, ← Nat.div_lt_iff_lt_mul hd, ← Nat.le_div_iff_mul_le hd]
  rcases Nat.lt_or_ge (n / d) (2 ^ 24) with h | h
  · rw [dropBits_zero h]
    exact ⟨h, fun h0 => absurd h0 (Nat.lt_irrefl 0)⟩
  · obtain ⟨-, hlo, hhi⟩ := dropBits_pos h
    rw [Nat.add_comm, Nat.pow_add] at hlo hhi
    exact ⟨hhi, fun _ => hlo⟩

theorem unitsOf_infMag : unitsOf infMag = 2 ^ 277 := by decide +kernel

/-- The packed significand in units of `1/d`. -/
theorem unitsOf_packed_mul {k s : Nat} (d : Nat) (hs : s ≤ 2 ^ 24) (hk : 0 < k → 2 ^ 23 ≤ s) :
    unitsOf (k * 2 ^ 23 + s) * d = s * (d * 2 ^ k) := by
  rw [unitsOf_packed hs hk]
  ring

/-- Below the first power of two past the finite values nothing is cut off: the rounding is the packed
significand of the ratio. -/
theorem roundMag_packed {n d : Nat} (hd : 0 < d) (hn : n < unitsOf infMag * d) :
    ∃ k, roundMag n d = k * 2 ^ 23 + divEven n (d * 2 ^ k) ∧
      divEven n (d * 2 ^ k) ≤ 2 ^ 24 ∧ (0 < k → 2 ^ 23 ≤ divEven n (d * 2 ^ k)) ∧
      n < 2 ^ 24 * (d * 2 ^ k) ∧ (0 < k → 2 ^ 23 * (d * 2 ^ k) ≤ n) := by
  obtain ⟨hs, hs'⟩ := significand_bounds n hd
  have hk : dropBits (n / d) ≤ 253 := by
    rw [unitsOf_infMag, ← Nat.div_lt_iff_lt_mul hd] at hn
    rcases Nat.lt_or_ge (n / d) (2 ^ 24) with h | h
    · simp [dropBits_zero h]
    · have := (Nat.pow_lt_pow_iff_right (by omega : 1 < 2)).1 ((dropBits_pos h).2.1.trans_lt hn)
      omega
  exact ⟨dropBits (n / d), Nat.min_eq_left (by unfold infMag; omega), hs, hs', ratio_bounds n hd⟩

/-- Twice the ratio is at least the sum of the rounded value and the value below it; they are equal
only when the rounded value is even. -/
theorem midpoint_below_roundMag (n : Nat) {d : Nat} (hd : 0 < d) (h0 : 0 < roundMag n d) :
    (unitsOf (roundMag n d - 1) + unitsOf (roundMag n d)) * d ≤ 2 * n ∧
    ((unitsOf (roundMag n d - 1) + unitsOf (roundMag n d)) * d = 2 * n → roundMag n d % 2 = 0) := by
  have hinf := roundMag_le_infMag n d
  rw [Nat.add_mul]
  rcases Nat.lt_or_ge n (unitsOf (roundMag n d) * d) with hlt | hge
  · -- rounded up: the value below has the significand one less and the same dropped bits
    obtain ⟨k, hr, hs, hk, -, hlo⟩ := roundMag_packed hd
      (hlt.trans_le (Nat.mul_le_mul_right d (unitsOf_mono hinf le_rfl)))
    have hD : 0 < d * 2 ^ k := Nat.mul_pos hd (Nat.pow_pos (by omega))
    have hb := (divEven_bounds n hD).1
    have htie := divEven_tie_up n hD
    rw [hr] at h0 hlt ⊢
    generalize divEven n (d * 2 ^ k) = s at *
    rw [unitsOf_packed_mul d hs hk] at hlt ⊢
    have hk' : 0 < k → 2 ^ 23 < s := fun h => Nat.lt_of_mul_lt_mul_right ((hlo h).trans_lt hlt)
    obtain ⟨t, rfl⟩ : ∃ t, s = t + 1 := ⟨s - 1, by omega⟩
    rw [← Nat.add_assoc, Nat.add_sub_cancel, unitsOf_packed_mul d (by omega) (by omega)]
    rw [Nat.add_mul] at hb htie ⊢
    omega
  · -- rounded down or exact: the ratio is above the midpoint
    have := Nat.mul_lt_mul_of_pos_right
      (unitsOf_lt (by omega) (Nat.sub_lt h0 Nat.one_pos) hinf) hd
    omega

/-- Twice the ratio is at most the sum of a finite rounded value and the value above it; they are equal
only when the rounded value is even. -/
theorem midpoint_above_roundMag {n d : Nat} (hd : 0 < d) (hfin : roundMag n d < infMag) :
    2 * n ≤ (unitsOf (roundMag n d) + unitsOf (roundMag n d + 1)) * d ∧
    (2 * n = (unitsOf (roundMag n d) + unitsOf (roundMag n d + 1)) * d → roundMag n d % 2 = 0) := by
  rw [Nat.add_mul]
  rcases Nat.lt_or_ge (unitsOf (roundMag n d) * d) n with hlt | hge
  · -- rounded down: the value above has the significand one more and the same dropped bits
    have hn : n < unitsOf infMag * d := by
      by_contra h
      exact hfin.not_ge (le_roundMag hd le_rfl (Nat.le_of_not_lt h))
    obtain ⟨k, hr, hs, hk, hhi, -⟩ := roundMag_packed hd hn
    have hD : 0 < d * 2 ^ k := Nat.mul_pos hd (Nat.pow_pos (by omega))
    have hb := (divEven_bounds n hD).2
    have htie := divEven_tie_down n hD
    rw [hr] at hlt ⊢
    generalize divEven n (d * 2 ^ k) = s at *
    rw [unitsOf_packed_mul d hs hk] at hlt ⊢
    have hs' : s < 2 ^ 24 := Nat.lt_of_mul_lt_mul_right (hlt.trans hhi)
    rw [Nat.add_assoc, unitsOf_packed_mul (s := s + 1) d hs' (by omega), Nat.add_mul]
    omega
  · -- rounded up or exact: the ratio is below the midpoint
    have := Nat.mul_lt_mul_of_pos_right (unitsOf_lt hfin.le (Nat.lt_add_one _) hfin) hd
    omega

/-- If `z` is on the side of `x` of the midpoint of `x` and `y`, `x` is at least as near to `z` as `y`, and
both are equally near on the midpoint only. -/
theorem abs_sub_le_of_midpoint {x y z : Int}
    (h : x < y ∧ 2 * z ≤ x + y ∨ y < x ∧ x + y ≤ 2 * z) :
    |x - z| ≤ |y - z| ∧ (|x - z| = |y - z| → x + y = 2 * z) := by
  rcases abs_cases (x - z) with hx | hx <;> rcases abs_cases (y - z) with hy | hy <;> omega

/-- No finite magnitude is nearer to the ratio than a finite rounded value, and another one is equally
near only when the rounded value is even. -/
theorem roundMag_nearest_even {n d m : Nat} (hd : 0 < d) (hfin : roundMag n d < infMag)
    (hm : m < infMag) :
    |(unitsOf (roundMag n d) * d : Int) - n| ≤ |(unitsOf m * d : Int) - n| ∧
    (|(unitsOf (roundMag n d) * d : Int) - n| = |(unitsOf m * d : Int) - n| → m ≠ roundMag n d →
      roundMag n d % 2 = 0) := by
  rcases Nat.lt_trichotomy m (roundMag n d) with h | rfl | h
  · obtain ⟨hmid, htie⟩ := midpoint_below_roundMag n hd (by omega)
    have hle : unitsOf m * d ≤ unitsOf (roundMag n d - 1) * d :=
      Nat.mul_le_mul_right d (unitsOf_mono (by omega) (by omega))
    have hlt : unitsOf m * d < unitsOf (roundMag n d) * d :=
      Nat.mul_lt_mul_of_pos_right (unitsOf_lt hm.le h hfin.le) hd
    rw [Nat.add_mul] at hmid htie
    obtain ⟨hnear, heq⟩ := abs_sub_le_of_midpoint (x := unitsOf (roundMag n d) * d)
      (y := unitsOf m * d) (z := n) (.inr (by omega))
    exact ⟨hnear, fun he _ => htie (by have := heq he; omega)⟩
  · exact ⟨le_rfl, fun _ h => absurd rfl h⟩
  · obtain ⟨hmid, htie⟩ := midpoint_above_roundMag hd hfin
    have hle : unitsOf (roundMag n d + 1) * d ≤ unitsOf m * d :=
      Nat.mul_le_mul_right d (unitsOf_mono h hm.le)
    have hlt : unitsOf (roundMag n d) * d < unitsOf m * d :=
      Nat.mul_lt_mul_of_pos_right (unitsOf_lt hfin.le h hm.le) hd
    rw [Nat.add_mul] at hmid htie
    obtain ⟨hnear, heq⟩ := abs_sub_le_of_midpoint (x := unitsOf (roundMag n d) * d)
      (y := unitsOf m * d) (z := n) (.inl (by omega))
    exact ⟨hnear, fun he _ => htie (by have := heq he; omega)⟩

/-- Twice the midpoint between the greatest finite value and the power of two above it. -/
theorem unitsOf_overflow : unitsOf (infMag - 1) + unitsOf infMag = 2 * ((2 ^ 25 - 1) * 2 ^ 252) := by
  decide +kernel

/-- The rounding overflows exactly from half a unit in the last place above the greatest finite value
on: that midpoint is a tie between an odd and an even magnitude. -/
theorem roundMag_eq_infMag_iff (n : Nat) {d : Nat} (hd : 0 < d) :
    roundMag n d = infMag ↔ (2 ^ 25 - 1) * 2 ^ 252 * d ≤ n := by
  have hmid : (unitsOf (infMag - 1) + unitsOf infMag) * d = 2 * ((2 ^ 25 - 1) * 2 ^ 252 * d) := by
    rw [unitsOf_overflow, Nat.mul_assoc]
  constructor
  · intro h
    have hle := (midpoint_below_roundMag n hd (by rw [h]; decide)).1
    rw [h, hmid] at hle
    omega
  · intro h
    by_contra hne
    obtain ⟨hle, htie⟩ := midpoint_above_roundMag hd
      (lt_of_le_of_ne (roundMag_le_infMag n d) hne)
    have hlt := Nat.mul_lt_mul_of_pos_right
      (unitsOf_lt (m := infMag - 1) (m' := infMag) (by omega) (by decide) le_rfl) hd
    rw [Nat.add_mul] at hmid
    have hge : infMag - 1 ≤ roundMag n d := le_roundMag hd (by omega) (by omega)
    have hr : roundMag n d = infMag - 1 := by have := roundMag_le_infMag n d; omega
    rw [hr, Nat.sub_add_cancel (by decide), Nat.add_mul] at hle htie
    exact absurd (htie (by omega)) (by decide)

/-- Settles O57: the ratio lies between the midpoints to the neighbours of the rounded value. -/
theorem roundingIsToNearestEven : Obligations.RoundingIsToNearestEven := by
  intro n d hd
  exact ⟨roundMag_eq_infMag_iff n hd, fun hfin _ hm => roundMag_nearest_even hd hfin hm⟩

end Sys2Proof.Machine
end

section
/-! SUPPORT. Sums, differences, products and quotients of finite values (00_scope.md R8) are as near to
the exact result as any finite value: each is a sign and one rounding of a ratio. -/

namespace Sys2Proof.Machine

theorem isFinite_fmag {a : F32} (h : isFinite a = true) : fmag a < infMag := by
  simpa [isFinite] using h

theorem fval_fpack (s : Bool) {m : Nat} (h : m < 2 ^ 31) :
    fval (fpack s m) = if s then -(unitsOf m : Int) else unitsOf m := by
  rw [fval, fsign_fpack s h, fmag_fpack s h]

theorem fval_abs (a : F32) : |fval a| = unitsOf (fmag a) := by
  rw [Int.abs_eq_natAbs, fval_natAbs]

/-- A finite signed rounding of `n / d` is as near to the signed ratio `z / d` as any finite value. -/
theorem fpack_roundMag_nearest {s : Bool} {n d : Nat} {z : Int} {x : F32} (hd : 0 < d)
    (hz : z = if s then -(n : Int) else n) (hfin : isFinite (fpack s (roundMag n d)) = true)
    (hx : isFinite x = true) :
    |fval (fpack s (roundMag n d)) * d - z| ≤ |fval x * d - z| := by
  have hr := isFinite_fmag hfin
  rw [fmag_fpack s (roundMag_lt n d)] at hr
  have hzn : |z| = n := by subst hz; cases s <;> simp
  calc |fval (fpack s (roundMag n d)) * d - z|
      = |(unitsOf (roundMag n d) * d : Int) - n| := by
        rw [fval_fpack s (roundMag_lt n d), hz]
        cases s
        · rfl
        · rw [if_pos rfl, if_pos rfl, neg_mul, ← neg_sub', abs_neg]
    _ ≤ |(unitsOf (fmag x) * d : Int) - n| := (roundMag_nearest_even hd hr (isFinite_fmag hx)).1
    _ = |(|fval x * d| - |z|)| := by rw [abs_mul, fval_abs, Nat.abs_cast, hzn]
    _ ≤ |fval x * d - z| := abs_abs_sub_abs_le_abs_sub _ _

theorem ofUnits_eq_fpack (b : Bool) (z : Int) :
    ofUnits b z = fpack (if z = 0 then b else decide (z < 0)) (roundMag z.natAbs 1) := by
  unfold ofUnits
  split
  · next h => rw [h]; rfl
  · rfl

/-- A finite rounded sum of units is as near to the exact sum as any finite value. -/
theorem ofUnits_nearest {b : Bool} {z : Int} {x : F32} (hfin : isFinite (ofUnits b z) = true)
    (hx : isFinite x = true) : |fval (ofUnits b z) - z| ≤ |fval x - z| := by
  rw [ofUnits_eq_fpack] at hfin ⊢
  have hz : z = if (if z = 0 then b else decide (z < 0)) then -(z.natAbs : Int) else z.natAbs := by
    by_cases h0 : z = 0
    · subst h0; cases b <;> rfl
    · by_cases hn : z < 0
      · simp [h0, hn, abs_of_neg hn]
      · simp [h0, hn, abs_of_nonneg (Int.not_lt.1 hn)]
  simpa using fpack_roundMag_nearest Nat.one_pos hz hfin hx

theorem fmul_nearest {q : Nat} {a b x : F32} (ha : isFinite a = true) (hb : isFinite b = true)
    (hfin : isFinite (fmul q a b) = true) (hx : isFinite x = true) :
    |fval (fmul q a b) * 2 ^ 149 - fval a * fval b| ≤ |fval x * 2 ^ 149 - fval a * fval b| := by
  rw [fmul_finite q ha hb] at hfin ⊢
  have hz : fval a * fval b = if fsign a != fsign b
      then -((unitsOf (fmag a) * unitsOf (fmag b) : Nat) : Int)
      else (unitsOf (fmag a) * unitsOf (fmag b) : Nat) := by
    unfold fval
    cases fsign a <;> cases fsign b <;> simp
  exact_mod_cast fpack_roundMag_nearest (Nat.two_pow_pos 149) hz hfin hx

theorem fdiv_nearest {q : Nat} {a b x : F32} (ha : isFinite a = true) (hb : isFinite b = true)
    (hb0 : isZero b = false) (hfin : isFinite (fdiv q a b) = true) (hx : isFinite x = true) :
    |fval (fdiv q a b) * fval b - fval a * 2 ^ 149| ≤ |fval x * fval b - fval a * 2 ^ 149| := by
  rw [fdiv_finite q ha hb hb0] at hfin ⊢
  have hd : 0 < unitsOf (fmag b) := by
    rw [← fval_natAbs, Int.natAbs_pos, Ne, fval_eq_zero, hb0]
    decide
  have hz : (if fsign b then -(fval a * 2 ^ 149) else fval a * 2 ^ 149) =
      if fsign a != fsign b then -((unitsOf (fmag a) * 2 ^ 149 : Nat) : Int)
      else (unitsOf (fmag a) * 2 ^ 149 : Nat) := by
    unfold fval
    cases fsign a <;> cases fsign b <;> simp
  -- dividing by a negative value negates both distances
  have hflip (w : Int) : |w * fval b - fval a * 2 ^ 149| =
      |w * unitsOf (fmag b) - if fsign b then -(fval a * 2 ^ 149) else fval a * 2 ^ 149| := by
    rw [fval.eq_def b]
    cases fsign b
    · rfl
    · rw [if_pos rfl, if_pos rfl, ← abs_neg]
      congr 1
      ring
  rw [hflip, hflip]
  exact fpack_roundMag_nearest hd hz hfin hx

/-- Settles O58: each operation is a sign and one rounding to nearest; a difference is a sum of units. -/
theorem arithmeticIsNearest : Obligations.ArithmeticIsNearest := by
  intro q a b x ha hb hx
  refine ⟨fun h => ?_, fun h => ?_, fun h => fmul_nearest ha hb h hx,
    fun hb0 h => fdiv_nearest ha hb hb0 h hx⟩
  · rw [fadd_finite q ha hb] at h ⊢
    exact ofUnits_nearest h hx
  · rw [fsub_finite q ha hb] at h ⊢
    exact ofUnits_nearest h hx

end Sys2Proof.Machine
end

section
/-! SUPPORT. The split of the modulation sample into an integer and a fractional part
(40_delay_buffer.md R87, R89). Between 0 and 2^23 both the integer part and the difference are exact:
the difference keeps the low bits of the sample's significand. -/

namespace Sys2Proof.Machine

/-- The exact value of a value that is not negative. -/
theorem fval_of_fge_zero {v : F32} (h : fge v f0 = true) : fval v = unitsOf (fmag v) := by
  rw [← fval_abs, abs_of_nonneg (fge_zero h).2]

/-- A finite magnitude is a significand of at most 24 bits, scaled by a power of two. -/
theorem unitsOf_significand {m : Nat} (h : m < infMag) :
    ∃ s e, s < 2 ^ 24 ∧ e ≤ 253 ∧ unitsOf m = s * 2 ^ e := by
  unfold infMag at h
  rcases Nat.lt_or_ge m (2 ^ 23) with hm | hm
  · exact ⟨m, 0, by omega, by omega, by rw [unitsOf_small (by omega)]; simp⟩
  · exact ⟨2 ^ 23 + m % 2 ^ 23, m / 2 ^ 23 - 1, by omega, by omega,
      by rw [unitsOf, if_neg (by omega)]⟩

/-- The remainder of a finite magnitude by a power of two is a finite magnitude: it loses high bits of
the significand only. -/
theorem exists_fmag_mod {m : Nat} (h : m < infMag) (j : Nat) :
    ∃ m', m' < infMag ∧ unitsOf m' = unitsOf m % 2 ^ j := by
  obtain ⟨s, e, hs, he, hu⟩ := unitsOf_significand h
  rcases Nat.le_total j e with hje | hej
  · refine ⟨0, by decide, ?_⟩
    rw [hu, Nat.mod_eq_zero_of_dvd (Dvd.dvd.mul_left (Nat.pow_dvd_pow 2 hje) s)]
    rfl
  · have hmod : unitsOf m % 2 ^ j = s % 2 ^ (j - e) * 2 ^ e := by
      rw [hu, ← Nat.sub_add_cancel hej, Nat.pow_add, Nat.mul_mod_mul_right, Nat.add_sub_cancel]
    rw [hmod]
    exact exists_fmag _ e ((Nat.mod_le _ _).trans_lt hs) he

/-- `U32ToF32` is exact below 2^24. -/
theorem natToF32_exact {k : Nat} (h : k < 2 ^ 24) :
    fval (natToF32 k) = k * 2 ^ 149 ∧ isFinite (natToF32 k) = true := by
  obtain ⟨m, hm, hu⟩ := exists_fmag k 149 h (by omega)
  exact ofUnits_exact false _ ⟨m, hm, by rw [hu]; norm_cast⟩

/-- A value that is not negative and below 2^23 is finite, with fewer than 23 bits before the point. -/
theorem below_two_pow_23 {m : F32} (h0 : fge m f0 = true) (h : flt m f2p23 = true) :
    isFinite m = true ∧ unitsOf (fmag m) / 2 ^ 149 < 2 ^ 23 := by
  obtain ⟨hn, hn', hk⟩ := (flt_iff _ _).1 h
  have hu : (unitsOf (fmag m) : Int) < 2 ^ 172 := by
    rw [← fval_of_fge_zero h0, ← show fval f2p23 = 2 ^ 172 by decide +kernel]
    exact (fkey_lt_iff hn hn').1 hk
  refine ⟨(isFinite_iff m).2 ⟨hn, ?_⟩, by omega⟩
  by_contra hinf
  have hinf' : fmag m = infMag := by simpa [isInf] using hinf
  rw [hinf', unitsOf_infMag] at hu
  omega

/-! The two parts of the sample. -/

theorem modClamp_of_fge {m : F32} (h : fge m f0 = true) : modClamp m = m := if_pos h

theorem modClamp_of_nan_or_neg {m : F32} (h : isNaN m = true ∨ flt m f0 = true) :
    modClamp m = f0 := by
  refine if_neg fun hge => ?_
  rcases h with h | h
  · rw [(fge_zero hge).1] at h
    cases h
  · have := flt_of_fle_of_flt hge h
    revert this
    decide

theorem modInt_of_fge {m : F32} (h : fge m f0 = true) :
    modInt m = min (unitsOf (fmag m) / 2 ^ 149) (2 ^ 32 - 1) := by
  rw [modInt, modClamp_of_fge h, floorSatU32_nonneg h]

theorem modFrac_of_clamp_zero (q : Nat) {m : F32} (h : modClamp m = f0) : modFrac q m = f0 := by
  have hk : natToF32 (modInt m) = f0 := by rw [modInt, h]; decide +kernel
  have hlt : flt f0 f2p23 = true := by decide
  rw [modFrac, h, if_pos hlt, hk, fsub_finite q (by decide) (by decide)]
  decide

/-- Below 2^23 the split is the division of the exact value by 1.0, with no rounding. -/
theorem modFrac_exact (q : Nat) {m : F32} (h0 : fge m f0 = true) (h : flt m f2p23 = true) :
    isFinite (modFrac q m) = true ∧ fval (modFrac q m) = fval m % 2 ^ 149 ∧
    (modInt m : Int) = fval m / 2 ^ 149 := by
  obtain ⟨hfin, hk⟩ := below_two_pow_23 h0 h
  have hint : modInt m = unitsOf (fmag m) / 2 ^ 149 := by
    rw [modInt_of_fge h0]
    omega
  obtain ⟨hnat, hnfin⟩ := natToF32_exact (k := modInt m) (by omega)
  have hsub : fval m - modInt m * 2 ^ 149 = (unitsOf (fmag m) % 2 ^ 149 : Nat) := by
    rw [fval_of_fge_zero h0, hint]
    omega
  obtain ⟨hval, hffin⟩ := ofUnits_exact (fsign m && !fsign (natToF32 (modInt m)))
    (fval m - modInt m * 2 ^ 149) (hsub ▸ exists_fmag_mod (isFinite_fmag hfin) 149)
  rw [modFrac, modClamp_of_fge h0, if_pos h, fsub_finite q hfin hnfin, hnat]
  refine ⟨hffin, ?_, ?_⟩
  · rw [hval, hsub, fval_of_fge_zero h0]
    rfl
  · rw [hint, fval_of_fge_zero h0]
    rfl

/-- Settles O43: the three ranges of the sample. -/
theorem modulationSplit : Obligations.ModulationSplit := by
  intro q m
  refine ⟨fun h => ?_, fun h => ?_, fun h0 h => ?_⟩
  · have hc := modClamp_of_nan_or_neg h
    exact ⟨by rw [modInt, hc]; decide, modFrac_of_clamp_zero q hc⟩
  · have h0 : fge m f0 = true := fle_trans (by decide) h
    have hlt : flt m f2p23 = false := by
      rw [flt_eq_not_fle (fge_zero h0).1 (by decide)]
      simpa [fge] using h
    refine ⟨?_, modInt_of_fge h0⟩
    rw [modFrac, modClamp_of_fge h0, hlt]
    rfl
  · obtain ⟨hfin, hf, hk⟩ := modFrac_exact q h0 h
    rw [hf, hk]
    exact ⟨hfin, by omega, by omega, by omega⟩

end Sys2Proof.Machine
end

section
/-! SUPPORT. NaN and the two zeros (00_scope.md R8), and the state after reset (10_state.md R32). -/

namespace Sys2Proof.Machine

/-! The four operations with a NaN operand. -/

theorem fadd_nan (q : Nat) {a b : F32} (h : isNaN a = true ∨ isNaN b = true) :
    fadd q a b = freshNaN q := if_pos h

theorem fsub_nan (q : Nat) {a b : F32} (h : isNaN a = true ∨ isNaN b = true) :
    fsub q a b = freshNaN q := fadd_nan q (by rwa [isNaN_fneg])

theorem fmul_nan (q : Nat) {a b : F32} (h : isNaN a = true ∨ isNaN b = true) :
    fmul q a b = freshNaN q := if_pos h

theorem fdiv_nan (q : Nat) {a b : F32} (h : isNaN a = true ∨ isNaN b = true) :
    fdiv q a b = freshNaN q := if_pos h

/-- Settles O59: a NaN operand decides every comparison and operation before any value is looked at. -/
theorem naNAndZeroRules : Obligations.NaNAndZeroRules := by
  refine ⟨fun q a b h => ?_, by decide, by decide, by decide⟩
  rw [fadd_nan q h, fsub_nan q h, fmul_nan q h, fdiv_nan q h]
  have hcmp : flt a b = false ∧ fle a b = false := by
    rcases h with h | h
    · exact ⟨flt_nan_left h b, fle_nan_left h b⟩
    · exact ⟨flt_nan_right a h, fle_nan_right a h⟩
  have hn := isNaN_freshNaN q
  exact ⟨hcmp.1, hcmp.2, hn, hn, hn, hn⟩

/-! Reset. -/

/-- Both ready bits are 0 at reset, so the clauses about a prepared machine claim nothing. -/
theorem reset_inv : State.reset.Inv :=
  ⟨by decide, ⟨reset_memory_wf, rfl, rfl⟩, nofun, nofun, by decide, by decide, by decide, nofun⟩

theorem angleOk_zero : AngleOk f0 := .inr (by decide)

/-- Settles O32: the angles and the rate are +0.0 at reset. -/
theorem resetMeetsInvariants : Obligations.ResetMeetsInvariants :=
  ⟨reset_inv, angleOk_zero, angleOk_zero, angleOk_zero, by decide⟩

end Sys2Proof.Machine
end

section
/-! SUPPORT. What every step keeps, from what every command keeps; what each command leaves unchanged
(10_state.md R30), that the ready bits only rise (R14), and the reset values and the reset event (R32,
70_reset_and_hazards.md R190). -/

namespace Sys2Proof.Machine

/-- A step is idle, drops a word or executes a command (R177, R187), so it keeps what every command
keeps, if that does not depend on the waiting words. -/
theorem step_keeps {P : State → Prop} (hport : ∀ s p, P s → P { s with port := p })
    (hexec : ∀ i s t, P s → exec i s = .next t → P t) {s t : State} (hs : P s)
    (h : step s = .next t) : P t := by
  rcases step_next.1 h with ⟨-, rfl⟩ | ⟨w, rest, -, ⟨r, -, rfl⟩ | ⟨i, -, hi⟩⟩
  · exact hs
  · exact hport s rest hs
  · exact hexec i _ t (hport s rest hs) hi

@[simp] theorem Quad.set_ofs {α : Type} (t : Quad α) (v : α) :
    t.set .ofs v = { t with ofs := v } := rfl
@[simp] theorem Quad.set_dep {α : Type} (t : Quad α) (v : α) :
    t.set .dep v = { t with dep := v } := rfl
@[simp] theorem Quad.set_ga {α : Type} (t : Quad α) (v : α) :
    t.set .ga v = { t with ga := v } := rfl
@[simp] theorem Quad.set_gb {α : Type} (t : Quad α) (v : α) :
    t.set .gb v = { t with gb := v } := rfl

@[simp] theorem gainRamp_a : gainRamp .a = .ga := rfl
@[simp] theorem gainRamp_b : gainRamp .b = .gb := rfl

/-- Settles O26, by the next state of each command. -/
theorem writeSets : Obligations.WriteSets := by
  intro i s t h
  cases i with
  | dbprep n maxLen =>
    obtain rfl := execDbprep_next.1 h
    simp [opcodeOf]
  | dbclr =>
    obtain ⟨-, rfl⟩ := execDbclr_next.1 h
    simp [opcodeOf]
  | dbsetd offA offB =>
    obtain ⟨-, rfl⟩ := execDbsetd_next.1 h
    simp [opcodeOf]
  | dbproc n inA inB modA modB =>
    obtain ⟨-, -, rfl⟩ := execDbproc_next.1 h
    simp [opcodeOf]
  | prepare n fs ms =>
    obtain rfl := execPrepare_next.1 h
    simp [opcodeOf]
  | clear =>
    obtain ⟨-, rfl⟩ := execClear_next.1 h
    simp [opcodeOf]
  | tick n xA xB =>
    obtain ⟨-, -, rfl⟩ := execTick_next.1 h
    simp [opcodeOf]
  | setofs force ms =>
    obtain ⟨-, rfl⟩ := execSetofs_next.1 h
    simp [opcodeOf]
  | setdep force ms =>
    obtain ⟨-, rfl⟩ := execSetdep_next.1 h
    simp [opcodeOf]
  | setgain n force gain =>
    obtain ⟨-, rfl⟩ | ⟨x, -, -, rfl⟩ := execSetgain_next.1 h
    · simp
    · cases x <;> simp [opcodeOf]
  | setrate hz =>
    obtain ⟨-, rfl⟩ := execSetrate_next.1 h
    simp [opcodeOf]
  | settype n =>
    obtain ⟨-, rfl⟩ | ⟨v, -, -, rfl⟩ := execSettype_next.1 h
    · simp
    · simp [opcodeOf]

/-! The ready bits. -/

/-- The two prepares set `dbReady`, and no other command writes it (R14). -/
theorem exec_keeps_dbReady (i : Instr) (s t : State) (hs : s.db.ready = true)
    (h : exec i s = .next t) : t.db.ready = true := by
  cases i with
  | dbprep =>
    obtain rfl := execDbprep_next.1 h
    rfl
  | prepare =>
    obtain rfl := execPrepare_next.1 h
    rfl
  | _ =>
    obtain ⟨-, -, hdb, -⟩ := writeSets _ s t h
    rw [(hdb (by simp [opcodeOf])).1, hs]

/-- PREPARE sets `fnReady`, and no other command writes it (R14). -/
theorem exec_keeps_fnReady (i : Instr) (s t : State) (hs : s.net.ready = true)
    (h : exec i s = .next t) : t.net.ready = true := by
  cases i with
  | prepare =>
    obtain rfl := execPrepare_next.1 h
    rfl
  | _ =>
    obtain ⟨-, -, -, hnet, -⟩ := writeSets _ s t h
    rw [(hnet (by simp [opcodeOf])).1, hs]

/-- Settles O11: a command that changes a ready bit is in its row of the table of R30. -/
theorem readyBitsOnlyRise : Obligations.ReadyBitsOnlyRise := by
  refine ⟨fun s t h => ⟨fun hs => ?_, fun hs => ?_⟩, fun i s t h => ?_⟩
  · exact step_keeps (P := fun s => s.db.ready = true) (fun _ _ h => h) exec_keeps_dbReady hs h
  · exact step_keeps (P := fun s => s.net.ready = true) (fun _ _ h => h) exec_keeps_fnReady hs h
  · obtain ⟨-, -, hdb, hnet, -⟩ := writeSets i s t h
    constructor
    · intro hs ht
      by_contra hop
      rw [(hdb (by simpa using hop)).1, hs] at ht
      cases ht
    · intro hs ht
      by_contra hop
      rw [(hnet (by simpa using hop)).1, hs] at ht
      cases ht

/-! Reset. -/

/-- DBCLR, DBSETD and DBPROC are guarded by `dbReady` (R173). -/
theorem exec_eq_needDb {i : Instr} (s : State)
    (h : opcodeOf i ∈ ([0x02, 0x03, 0x04] : List (BitVec 8))) : ∃ r, exec i s = needDb s r := by
  cases i with
  | dbclr => exact ⟨_, rfl⟩
  | dbsetd => exact ⟨_, rfl⟩
  | dbproc => exact ⟨_, rfl⟩
  | _ => simp [opcodeOf] at h

/-- CLEAR, TICK and the five setters are guarded by `fnReady` (R173). -/
theorem exec_eq_needFn {i : Instr} (s : State) (hi : i.wellFormed = true)
    (h : opcodeOf i ∈ ([0x11, 0x12, 0x20, 0x21, 0x22, 0x23, 0x24] : List (BitVec 8))) :
    ∃ r, exec i s = needFn s r := by
  cases i with
  | clear => exact ⟨_, rfl⟩
  | tick => exact ⟨_, rfl⟩
  | setofs => exact ⟨_, rfl⟩
  | setdep => exact ⟨_, rfl⟩
  | setrate => exact ⟨_, rfl⟩
  | setgain n force gain =>
    obtain ⟨x, hx⟩ := nodeOf_wellFormed hi
    simp only [exec, execSetgain, hx]
    exact ⟨_, rfl⟩
  | settype n =>
    obtain ⟨v, hv⟩ := waveOf_wellFormed hi
    simp only [exec, execSettype, hv]
    exact ⟨_, rfl⟩
  | _ => simp [opcodeOf] at h

/-- With both ready bits 0 every well-formed command but the prepares is a contract violation (R173). -/
theorem exec_unprepared {i : Instr} {s : State} (hi : i.wellFormed = true)
    (hop : opcodeOf i ∉ ([0x01, 0x10] : List (BitVec 8))) (hdb : s.db.ready = false)
    (hnet : s.net.ready = false) : exec i s = .fault .notPrepared := by
  have hcolumn : opcodeOf i ∈ ([0x02, 0x03, 0x04] : List (BitVec 8)) ∨
      opcodeOf i ∈ ([0x11, 0x12, 0x20, 0x21, 0x22, 0x23, 0x24] : List (BitVec 8)) := by
    cases i <;> simp [opcodeOf] at hop ⊢
  rcases hcolumn with hc | hc
  · obtain ⟨r, hr⟩ := exec_eq_needDb s hc
    rw [hr, needDb_unready hdb]
  · obtain ⟨r, hr⟩ := exec_eq_needFn s hi hc
    rw [hr, needFn_unready hnet]

/-- Settles O35, by the reset state's own fields. -/
theorem resetValues : Obligations.ResetValues := ⟨rfl, rfl, rfl, rfl, rfl, rfl, rfl⟩

/-- Settles O36: after the reset event both ready bits are 0. -/
theorem resetEvent : Obligations.ResetEvent := by
  intro s
  exact ⟨rfl, rfl, rfl, rfl, rfl, rfl, rfl, fun i hi hop => exec_unprepared hi hop rfl rfl⟩

end Sys2Proof.Machine
end

section
/-! SUPPORT. Every step keeps the machine's invariant (10_state.md R14, R18, R22, R26): the operations of
each sub-block keep its part, and each command is a few of them. -/

namespace Sys2Proof.Machine

/-! The Delay Buffer Engine. -/

/-- The invariant of a prepared engine: the registers of R18 and the memory (20_memory.md R41). -/
def DbeOk (p : Params) (b : Dbe) : Prop := MemOk p b.buf ∧ DbeRegsOk p b

theorem dbeOk_dbPrepare {p : Params} (hp : ParamsLegal p) {b : Dbe} (h : MemOk p b.buf)
    (maxLen n : Nat) : DbeOk p (dbPrepare p maxLen n b) := by
  obtain ⟨hmin, hmax, -, -⟩ := hp
  have hlen := dbPrepare_len_toNat p maxLen n b hmin hmax
  have halloc := dbPrepare_alloc_toNat p maxLen n b
  have hrange : 2 ≤ clampN maxLen 2 p.maxLen ∧ clampN maxLen 2 p.maxLen ≤ p.maxLen := by
    unfold clampN
    omega
  refine ⟨memZero_ok h _ _, ?_⟩
  rw [DbeRegsOk, hlen, halloc, dbPrepare_w, dbPrepare_d]
  simp
  omega

theorem dbeOk_dbClear {p : Params} {b : Dbe} (h : DbeOk p b) : DbeOk p (dbClear b) :=
  ⟨memZero_ok h.1 _ _, h.2⟩

theorem dbeOk_dbSetDelay {p : Params} {b : Dbe} (h : DbeOk p b) (offA offB : Int) :
    DbeOk p (dbSetDelay offA offB b) := by
  obtain ⟨hmem, hlen, hmax, halloc, hwa, hwb, -⟩ := h
  have ha := delayOffset_range b.len offA hlen
  have hb := delayOffset_range b.len offB hlen
  exact ⟨hmem, hlen, hmax, halloc, hwa, hwb, ha.1, ha.2, hb.1, hb.2⟩

/-- A store is at the cursor, which is inside the bank, and the cursor stays below `L`. -/
theorem dbeOk_dbStore {p : Params} {b : Dbe} (h : DbeOk p b) (x : Node) (v : F32) :
    DbeOk p (dbStore b x v) := by
  obtain ⟨hmem, hregs⟩ := h
  have hw := hregs.w_lt x
  have hnext := nextCursor_toNat _ _ hw
  have hlt := Nat.mod_lt ((b.w.get x).toNat + 1) (Nat.zero_lt_of_lt hw)
  rw [← hnext] at hlt
  obtain ⟨hlen, hmax, halloc, hwa, hwb, hd⟩ := hregs
  refine ⟨memWrite_ok hmem x _ v (by omega), hlen, hmax, halloc, ?_⟩
  cases x
  · exact ⟨hlt, hwb, hd⟩
  · exact ⟨hwa, hlt, hd⟩

theorem dbeOk_dbTurn {p : Params} {b : Dbe} (h : DbeOk p b) (q n : Nat) (x : Node) (v m : F32) :
    DbeOk p (dbTurn q b n x v m).2 := by
  unfold dbTurn
  split
  · exact dbeOk_dbStore h x v
  · exact h

theorem dbeOk_dbProcess {p : Params} {b : Dbe} (h : DbeOk p b) (q n : Nat) (ins mods : Pair F32) :
    DbeOk p (dbProcess q n ins mods b).2 :=
  dbeOk_dbTurn (dbeOk_dbTurn h _ _ _ _ _) _ _ _ _ _

/-! The saturations of the setters. -/

theorem nonNegative_range (v : F32) : fge (nonNegative v) f0 = true := by
  unfold nonNegative
  split
  · assumption
  · decide

/-- The saturated gain is in `[-1, 1]` in each of the four cases of R138. -/
theorem gainClamp_range (g : F32) : GainOk (gainClamp g) := by
  unfold gainClamp
  split
  · next h => exact h
  split
  · decide
  split <;> decide

/-! The invariant by sub-block. -/

theorem State.Inv.dbeOk {s : State} (h : s.Inv) (hr : s.db.ready = true) : DbeOk s.params s.db := by
  obtain ⟨-, hmem, hregs, -⟩ := h
  exact ⟨hmem, hregs hr⟩

/-- `fnReady` implies `dbReady` (R14). -/
theorem State.Inv.dbReady {s : State} (h : s.Inv) (hr : s.net.ready = true) : s.db.ready = true := by
  obtain ⟨-, -, -, hready, -⟩ := h
  exact hready hr

theorem State.Inv.withDb {s : State} (h : s.Inv) {b : Dbe} (hb : DbeOk s.params b)
    (hr : b.ready = true) : State.Inv { s with db := b } := by
  obtain ⟨hp, -, -, -, hrest⟩ := h
  exact ⟨hp, hb.1, fun _ => hb.2, fun _ => hr, hrest⟩

theorem State.Inv.withLfo {s : State} (h : s.Inv) {l : Lfo} (hl : fge l.rate f0 = true) :
    State.Inv { s with lfo := l } := by
  obtain ⟨hp, hmem, hregs, hready, -, hrest⟩ := h
  exact ⟨hp, hmem, hregs, hready, hl, hrest⟩

theorem State.Inv.withNet {s : State} (h : s.Inv) {m : Net} (hr : s.db.ready = true)
    (ha : GainOk m.tgt.ga) (hb : GainOk m.tgt.gb) (hramp : RampsOk m.ramp) :
    State.Inv { s with net := m } := by
  obtain ⟨hp, hmem, hregs, -, hrate, -⟩ := h
  exact ⟨hp, hmem, hregs, fun _ => hr, hrate, ha, hb, fun _ => hramp⟩

/-- What a prepared network may rely on: both gain targets in range and the ramp units prepared. -/
theorem State.Inv.net {s : State} (h : s.Inv) (hr : s.net.ready = true) :
    GainOk s.net.tgt.ga ∧ GainOk s.net.tgt.gb ∧ RampsOk s.net.ramp := by
  obtain ⟨-, -, -, -, -, ha, hb, hramp⟩ := h
  exact ⟨ha, hb, hramp hr⟩

theorem State.Inv.rate {s : State} (h : s.Inv) : fge s.lfo.rate f0 = true := by
  obtain ⟨-, -, -, -, hrate, -⟩ := h
  exact hrate

/-- A setter writes one target, which is a legal one if it is a gain's, and one ramp unit. -/
theorem State.Inv.setTarget {s : State} (h : s.Inv) (hr : s.net.ready = true) (r : RampId) {v : F32}
    (hv : r = .ga ∨ r = .gb → GainOk v) (force : Bool) :
    State.Inv { s with net := setTarget r v force s.net } := by
  obtain ⟨ha, hb, hramp⟩ := h.net hr
  have hramp' := hramp.set r (u := rampSetTarget v force (s.net.ramp.get r)) (by
    rw [rampPrepared_setTarget]
    exact hramp.get r)
  cases r with
  | ofs => exact h.withNet (h.dbReady hr) ha hb hramp'
  | dep => exact h.withNet (h.dbReady hr) ha hb hramp'
  | ga => exact h.withNet (h.dbReady hr) (hv (.inl rfl)) hb hramp'
  | gb => exact h.withNet (h.dbReady hr) ha (hv (.inr rfl)) hramp'

/-- PREPARE establishes what the ready bits claim and keeps the rate and the targets (R121). -/
theorem execPrepare_keeps_inv {n : BitVec 8} {fs ms : F32} {s t : State} (h : s.Inv)
    (ht : execPrepare n fs ms s = .next t) : t.Inv := by
  obtain rfl := execPrepare_next.1 ht
  have ⟨hp, hmem, _, _, hrate, ha, hb, _⟩ := h
  have hdb := dbeOk_dbSetDelay (dbeOk_dbPrepare hp hmem (ms2Len s.free fs ms) n.toNat)
    s.params.baseDelay s.params.baseDelay
  exact ((h.withDb hdb rfl).withLfo hrate).withNet rfl ha hb (rampsOk_prepareRamps ..)

theorem execTick_keeps_inv {n : BitVec 8} {xA xB : F32} {s t : State} (h : s.Inv)
    (ht : execTick n xA xB s = .next t) : t.Inv := by
  obtain ⟨hr, -, rfl⟩ := execTick_next.1 ht
  have hdb := h.dbReady hr
  obtain ⟨ha, hb, hramp⟩ := h.net hr
  exact ((h.withDb (dbeOk_dbProcess (h.dbeOk hdb) ..) (by simpa using hdb)).withLfo h.rate).withNet
    (by simpa using hdb) ha hb (rampsOk_ramped hramp)

/-- Every command keeps the invariant. -/
theorem exec_keeps_inv (i : Instr) (s t : State) (h : s.Inv) (ht : exec i s = .next t) : t.Inv := by
  cases i with
  | dbprep n maxLen =>
    obtain rfl := execDbprep_next.1 ht
    have ⟨hp, hmem, _⟩ := h
    exact h.withDb (dbeOk_dbPrepare hp hmem _ _) rfl
  | dbclr =>
    obtain ⟨hr, rfl⟩ := execDbclr_next.1 ht
    exact h.withDb (dbeOk_dbClear (h.dbeOk hr)) hr
  | dbsetd offA offB =>
    obtain ⟨hr, rfl⟩ := execDbsetd_next.1 ht
    exact h.withDb (dbeOk_dbSetDelay (h.dbeOk hr) _ _) hr
  | dbproc n inA inB modA modB =>
    obtain ⟨hr, -, rfl⟩ := execDbproc_next.1 ht
    exact h.withDb (dbeOk_dbProcess (h.dbeOk hr) _ _ _ _) (by simpa using hr)
  | prepare n fs ms => exact execPrepare_keeps_inv h ht
  | clear =>
    obtain ⟨hr, rfl⟩ := execClear_next.1 ht
    have hdb := h.dbReady hr
    obtain ⟨ha, hb, hramp⟩ := h.net hr
    exact (h.withDb (dbeOk_dbClear (h.dbeOk hdb)) hdb).withNet hdb ha hb hramp
  | tick n xA xB => exact execTick_keeps_inv h ht
  | setofs force ms =>
    obtain ⟨hr, rfl⟩ := execSetofs_next.1 ht
    exact h.setTarget hr .ofs (by simp) force
  | setdep force ms =>
    obtain ⟨hr, rfl⟩ := execSetdep_next.1 ht
    exact h.setTarget hr .dep (by simp) force
  | setgain n force gain =>
    obtain ⟨-, rfl⟩ | ⟨x, -, hr, rfl⟩ := execSetgain_next.1 ht
    · exact h
    · exact h.setTarget hr (gainRamp x) (fun _ => gainClamp_range gain) force
  | setrate hz =>
    obtain ⟨-, rfl⟩ := execSetrate_next.1 ht
    exact h.withLfo (nonNegative_range hz)
  | settype n =>
    obtain ⟨-, rfl⟩ | ⟨v, -, -, rfl⟩ := execSettype_next.1 ht
    · exact h
    · exact h.withLfo h.rate

/-- Settles O33: no part of the invariant looks at the waiting words, and every command keeps it. -/
theorem stepKeepsInvariant : Obligations.StepKeepsInvariant := by
  intro s t h
  exact step_keeps (P := State.Inv) (fun _ _ h => h) exec_keeps_inv h

end Sys2Proof.Machine
end

section
/-! SUPPORT. Phases and increment stay in `[0, TWO_PI)` or NaN (10_state.md R20, 41_lfo_engine.md R106,
R108). The advance: two angles sum to less than twice TWO_PI. The increment: half the sample rate,
rounded, is at most three quarters of it, whatever the sample rate is. -/

namespace Sys2Proof.Machine

/-! Values that are not negative. -/

theorem fge_zero_iff {v : F32} :
    fge v f0 = true ↔ isNaN v = false ∧ (fsign v = true → fmag v = 0) := by
  have h0 : fkey f0 = 0 := by decide
  have hn : isNaN f0 = false := by decide
  rw [fge, fle_iff, h0]
  unfold fkey
  cases fsign v <;> simp [hn]

theorem fkey_of_fge_zero {v : F32} (h : fge v f0 = true) : fkey v = fmag v := by
  have hs := (fge_zero_iff.1 h).2
  unfold fkey
  split
  · next hv => simp [hs hv]
  · rfl

/-- Of values that are not negative, the one with the smaller magnitude bits is the smaller. -/
theorem fle_iff_fmag_le {a b : F32} (ha : fge a f0 = true) (hb : fge b f0 = true) :
    fle a b = true ↔ fmag a ≤ fmag b := by
  rw [fle_iff, fkey_of_fge_zero ha, fkey_of_fge_zero hb]
  simp [(fge_zero ha).1, (fge_zero hb).1]

theorem isFinite_of_fle {a c : F32} (ha : fge a f0 = true) (h : fle a c = true)
    (hc : isFinite c = true) : isFinite a = true := by
  have hle := (fle_iff_fmag_le ha (fle_trans ha h)).1 h
  have hlt := isFinite_fmag hc
  simp only [isFinite, decide_eq_true_eq]
  omega

theorem fmag_le_infMag {a : F32} (h : isNaN a = false) : fmag a ≤ infMag := by
  simpa [isNaN] using h

/-- A sign, set on a zero only, and magnitude bits at most those of `c` make a value in `[0, c]`. -/
theorem fpack_range {s : Bool} {m : Nat} {c : F32} (hc : fge c f0 = true) (hm : m ≤ fmag c)
    (hs : s = true → m = 0) : fge (fpack s m) f0 = true ∧ fle (fpack s m) c = true := by
  have hinf : m ≤ infMag := hm.trans (fmag_le_infMag (fge_zero hc).1)
  have hlt : m < 2 ^ 31 := hinf.trans_lt infMag_lt
  have h0 : fge (fpack s m) f0 = true := by
    rw [fge_zero_iff, fsign_fpack s hlt, fmag_fpack s hlt]
    exact ⟨not_isNaN_fpack s hinf, hs⟩
  exact ⟨h0, by rwa [fle_iff_fmag_le h0 hc, fmag_fpack s hlt]⟩

theorem range_of_isZero {a c : F32} (ha : isZero a = true) (hc : fge c f0 = true) :
    fge a f0 = true ∧ fle a c = true := by
  have hm : fmag a = 0 := by simpa [isZero] using ha
  rw [← fpack_fsign_fmag a, hm]
  exact fpack_range hc (Nat.zero_le _) fun _ => rfl

@[simp] theorem unitsOf_zero : unitsOf 0 = 0 := rfl

theorem roundMag_zero {d : Nat} (hd : 0 < d) : roundMag 0 d = 0 :=
  Nat.le_zero.1 (roundMag_le hd (Nat.zero_le _) (Nat.zero_le _))

theorem unitsOf_pos {a : F32} (h : isZero a = false) : 0 < unitsOf (fmag a) := by
  rw [← fval_natAbs, Int.natAbs_pos, Ne, fval_eq_zero, h]
  decide

/-- A product of values that are not negative, at most `c`, rounds into `[0, c]`. -/
theorem fmul_range (q : Nat) {a b c : F32} (ha : isFinite a = true) (hb : isFinite b = true)
    (ha0 : fge a f0 = true) (hb0 : fge b f0 = true) (hc : fge c f0 = true)
    (h : unitsOf (fmag a) * unitsOf (fmag b) ≤ unitsOf (fmag c) * 2 ^ 149) :
    fge (fmul q a b) f0 = true ∧ fle (fmul q a b) c = true := by
  have hd : 0 < 2 ^ 149 := Nat.two_pow_pos 149
  rw [fmul_finite q ha hb]
  refine fpack_range hc (roundMag_le hd (fmag_le_infMag (fge_zero hc).1) h) fun hs => ?_
  have hzero : unitsOf (fmag a) * unitsOf (fmag b) = 0 := by
    cases hsa : fsign a with
    | true => simp [(fge_zero_iff.1 ha0).2 hsa]
    | false => simp [(fge_zero_iff.1 hb0).2 (by simpa [hsa] using hs)]
  rw [hzero, roundMag_zero hd]

/-- A quotient of values of one sign, at most `c`, rounds into `[0, c]`. -/
theorem fdiv_range (q : Nat) {a b c : F32} (ha : isFinite a = true) (hb : isFinite b = true)
    (hb0 : isZero b = false) (hs : fsign a = fsign b ∨ fmag a = 0) (hc : fge c f0 = true)
    (h : unitsOf (fmag a) * 2 ^ 149 ≤ unitsOf (fmag c) * unitsOf (fmag b)) :
    fge (fdiv q a b) f0 = true ∧ fle (fdiv q a b) c = true := by
  have hd := unitsOf_pos hb0
  rw [fdiv_finite q ha hb hb0]
  refine fpack_range hc (roundMag_le hd (fmag_le_infMag (fge_zero hc).1) h) fun hne => ?_
  have hzero : fmag a = 0 := hs.resolve_left (by simpa using hne)
  simp [hzero, roundMag_zero hd]

/-! The phase advance. -/

/-- The greatest value below TWO_PI. -/
def belowTwoPi : F32 := 0x40C90FDA#32

/-- Twice the greatest value below TWO_PI. -/
def twiceBelowTwoPi : F32 := 0x41490FDA#32

theorem fval_twiceBelowTwoPi : fval twiceBelowTwoPi = fval belowTwoPi + fval belowTwoPi := by
  decide +kernel

theorem fval_belowTwoPi_lt : fval belowTwoPi < fval twoPi := by decide +kernel

theorem flt_twoPi_of_fle {a : F32} (h : fle a belowTwoPi = true) : flt a twoPi = true :=
  flt_of_fle_of_flt h (by decide)

theorem fle_belowTwoPi_of_flt {a : F32} (h : flt a twoPi = true) : fle a belowTwoPi = true := by
  obtain ⟨hn, -, hk⟩ := (flt_iff _ _).1 h
  have hpred : fkey twoPi = fkey belowTwoPi + 1 := by decide
  exact (fle_iff _ _).2 ⟨hn, by decide, by omega⟩

/-- The exact value of an angle. -/
theorem fval_angle {a : F32} (h0 : fge a f0 = true) (h : flt a twoPi = true) :
    isFinite a = true ∧ 0 ≤ fval a ∧ fval a ≤ fval belowTwoPi := by
  have hle := fle_belowTwoPi_of_flt h
  obtain ⟨hn, hn', hk⟩ := (fle_iff _ _).1 hle
  exact ⟨isFinite_of_fle h0 hle (by decide), (fge_zero h0).2, (fkey_le_iff hn hn').1 hk⟩

/-- One advance of an angle by an angle, with one conditional subtraction, is an angle (R106). -/
theorem advancePhase_range (q : Nat) {ph inc : F32} (hph0 : fge ph f0 = true)
    (hph : flt ph twoPi = true) (hinc0 : fge inc f0 = true) (hinc : flt inc twoPi = true) :
    fge (advancePhase q ph inc) f0 = true ∧ flt (advancePhase q ph inc) twoPi = true := by
  obtain ⟨hpf, hp1, hp2⟩ := fval_angle hph0 hph
  obtain ⟨hif, hi1, hi2⟩ := fval_angle hinc0 hinc
  have hz : fval f0 = 0 := by decide
  have htwice := fval_twiceBelowTwoPi
  have hpred := fval_belowTwoPi_lt
  have hs0 : fge (fadd q ph inc) f0 = true := le_fadd q hpf hif (by decide) (by omega)
  have hs1 : fle (fadd q ph inc) twiceBelowTwoPi = true := fadd_le q hpf hif (by decide) (by omega)
  unfold advancePhase
  dsimp only
  generalize fadd q ph inc = s at hs0 hs1
  split
  · next hge =>
    have hsf := isFinite_of_fle hs0 hs1 (by decide)
    have htf : isFinite (fneg twoPi) = true := by decide
    obtain ⟨hn, hn', hk⟩ := (fle_iff _ _).1 hs1
    have hsmax := (fkey_le_iff hn hn').1 hk
    obtain ⟨hn, hn', hk⟩ := (fle_iff _ _).1 hge
    have hsmin := (fkey_le_iff hn hn').1 hk
    have hneg := fval_fneg twoPi
    exact ⟨le_fadd _ hsf htf (by decide) (by omega),
      flt_twoPi_of_fle (fadd_le _ hsf htf (by decide) (by omega))⟩
  · next hlt =>
    refine ⟨hs0, ?_⟩
    rw [flt_eq_not_fle (fge_zero hs0).1 (by decide)]
    simpa [fge] using hlt

theorem advancePhase_nan (q : Nat) {ph inc : F32} (h : isNaN ph = true ∨ isNaN inc = true) :
    isNaN (advancePhase q ph inc) = true := by
  have hn := isNaN_freshNaN q
  simp [advancePhase, fadd_nan q h, fge, fle_nan_right twoPi hn]

theorem angleOk_advancePhase (q : Nat) {ph inc : F32} (hph : AngleOk ph) (hinc : AngleOk inc) :
    AngleOk (advancePhase q ph inc) := by
  rcases hph with hph | ⟨hph0, hph⟩
  · exact .inl (advancePhase_nan q (.inl hph))
  rcases hinc with hinc | ⟨hinc0, hinc⟩
  · exact .inl (advancePhase_nan q (.inr hinc))
  · exact .inr (advancePhase_range q hph0 hph hinc0 hinc)

/-! The phase increment. -/

/-- Half of a finite value rounds to at most three quarters of it. Only an odd number of units below 2^24
has a half that is not exact: it rounds to the next integer at most, and 1 unit rounds to zero. -/
theorem four_mul_half_le {m : Nat} (h : m < infMag) :
    4 * unitsOf (roundMag (unitsOf m * 2 ^ 148) (2 ^ 149)) ≤ 3 * unitsOf m := by
  have hd : 0 < 2 ^ 149 := Nat.two_pow_pos 149
  obtain ⟨s, e, hs, he, hu⟩ := unitsOf_significand h
  have hone : roundMag (1 * 2 ^ 148) (2 ^ 149) = 0 := by decide +kernel
  rcases Nat.eq_or_lt_of_le (Nat.zero_le (unitsOf m)) with h0 | h0
  · rw [← h0, Nat.zero_mul, roundMag_zero hd]
    simp
  by_cases h1 : unitsOf m = 1
  · rw [h1, hone]
    simp [unitsOf]
  obtain ⟨m', hm', hlo, hhi⟩ : ∃ m', m' < infMag ∧ unitsOf m ≤ 2 * unitsOf m' ∧
      4 * unitsOf m' ≤ 3 * unitsOf m := by
    rcases e with - | e
    · obtain ⟨m', hm', hu'⟩ := exists_fmag ((s + 1) / 2) 0 (by omega) (by omega)
      exact ⟨m', hm', by omega, by omega⟩
    · obtain ⟨m', hm', hu'⟩ := exists_fmag s e hs (by omega)
      rw [pow_succ, ← Nat.mul_assoc, ← hu'] at hu
      exact ⟨m', hm', by omega, by omega⟩
  have hle := roundMag_le hd hm'.le (show unitsOf m * 2 ^ 148 ≤ unitsOf m' * 2 ^ 149 by omega)
  have := unitsOf_mono hle hm'.le
  omega

/-- The rate the increment is taken of: half the sample rate where the rate is above it (R108). Uses free
value `q`. -/
def saturatedRate (q : Nat) (rate fs : F32) : F32 :=
  if fgt rate (fmul q fs fHalf) then fmul q fs fHalf else rate

theorem phaseInc_eq (q : Nat) (rate fs : F32) :
    phaseInc q rate fs = fmul (q + 2) twoPi (fdiv (q + 1) (saturatedRate q rate fs) fs) := rfl

/-- For a finite sample rate the saturated rate is at most half of it, and has its sign if it is not zero. -/
theorem saturatedRate_le (q : Nat) {rate fs : F32} (hr : fge rate f0 = true)
    (hfs : isFinite fs = true) :
    fmag (saturatedRate q rate fs) ≤ roundMag (unitsOf (fmag fs) * 2 ^ 148) (2 ^ 149) ∧
    (fsign (saturatedRate q rate fs) = fsign fs ∨ fmag (saturatedRate q rate fs) = 0) := by
  have hhalf : fmul q fs fHalf =
      fpack (fsign fs) (roundMag (unitsOf (fmag fs) * 2 ^ 148) (2 ^ 149)) := by
    rw [fmul_finite q hfs (by decide), show unitsOf (fmag fHalf) = 2 ^ 148 by decide,
      show fsign fHalf = false by decide, Bool.bne_false]
  unfold saturatedRate
  rw [hhalf]
  have hlt := roundMag_lt (unitsOf (fmag fs) * 2 ^ 148) (2 ^ 149)
  have hn := not_isNaN_fpack (fsign fs) (roundMag_le_infMag (unitsOf (fmag fs) * 2 ^ 148) (2 ^ 149))
  generalize roundMag (unitsOf (fmag fs) * 2 ^ 148) (2 ^ 149) = m at hlt hn
  split
  · rw [fmag_fpack _ hlt, fsign_fpack _ hlt]
    exact ⟨le_rfl, .inl rfl⟩
  · next hle =>
    rw [fgt, flt_eq_not_fle hn (fge_zero hr).1] at hle
    obtain ⟨-, -, hk⟩ := (fle_iff _ _).1 (by simpa using hle)
    rw [fkey_of_fge_zero hr, fkey, fmag_fpack _ hlt, fsign_fpack _ hlt] at hk
    cases hfs' : fsign fs with
    | true =>
      rw [hfs', if_pos rfl] at hk
      exact ⟨by omega, .inr (by omega)⟩
    | false =>
      rw [hfs', if_neg (by decide)] at hk
      refine ⟨by omega, ?_⟩
      cases hrs : fsign rate with
      | true => exact .inr ((fge_zero_iff.1 hr).2 hrs)
      | false => exact .inl rfl

/-- So it is finite and at most three quarters of the sample rate. -/
theorem saturatedRate_le_three_quarters (q : Nat) {rate fs : F32} (hr : fge rate f0 = true)
    (hfs : isFinite fs = true) :
    isFinite (saturatedRate q rate fs) = true ∧
    4 * unitsOf (fmag (saturatedRate q rate fs)) ≤ 3 * unitsOf (fmag fs) := by
  have hlt := isFinite_fmag hfs
  obtain ⟨hle, -⟩ := saturatedRate_le q hr hfs
  have hhalf : roundMag (unitsOf (fmag fs) * 2 ^ 148) (2 ^ 149) ≤ fmag fs :=
    roundMag_le (Nat.two_pow_pos 149) hlt.le (by omega)
  have hunits := unitsOf_mono hle (roundMag_le_infMag _ _)
  have := four_mul_half_le hlt
  exact ⟨by simp only [isFinite, decide_eq_true_eq]; omega, by omega⟩

theorem fdiv_zero_zero (q : Nat) {a b : F32} (ha : isZero a = true) (hb : isZero b = true) :
    isNaN (fdiv q a b) = true := by
  have hma : fmag a = 0 := by simpa [isZero] using ha
  have hmb : fmag b = 0 := by simpa [isZero] using hb
  have hq : fdiv q a b = freshNaN q := by simp [fdiv, isNaN, isInf, isZero, hma, hmb, infMag]
  rw [hq, isNaN_freshNaN]

/-- A quotient by an infinity is NaN or a zero. -/
theorem fdiv_isInf_right (q : Nat) (a : F32) {b : F32} (hb : isInf b = true) :
    isNaN (fdiv q a b) = true ∨ isZero (fdiv q a b) = true := by
  by_cases hnan : isNaN a = true ∨ isNaN b = true
  · exact .inl (by rw [fdiv_nan q hnan, isNaN_freshNaN])
  by_cases ha : isInf a = true
  · exact .inl (by simp [fdiv, hnan, ha, hb])
  · exact .inr (by simp [fdiv, hnan, ha, hb, isZero, fmag_fpack])

/-- 0.75 -/
def threeQuarters : F32 := 0x3F400000#32

/-- The quotient that `PhaseInc` multiplies by TWO_PI is in `[0, 3/4]`, or NaN for a sample rate that is
zero or not finite. -/
theorem saturatedRate_div_range (q : Nat) {rate fs : F32} (hr : fge rate f0 = true) :
    isNaN (fdiv (q + 1) (saturatedRate q rate fs) fs) = true ∨
    (fge (fdiv (q + 1) (saturatedRate q rate fs) fs) f0 = true ∧
      fle (fdiv (q + 1) (saturatedRate q rate fs) fs) threeQuarters = true) := by
  by_cases hnan : isNaN fs = true
  · exact .inl (by rw [fdiv_nan _ (.inr hnan), isNaN_freshNaN])
  by_cases hinf : isInf fs = true
  · refine (fdiv_isInf_right (q + 1) (saturatedRate q rate fs) hinf).imp_right fun hz => ?_
    exact range_of_isZero hz (by decide)
  have hfs : isFinite fs = true := (isFinite_iff fs).2 ⟨by simpa using hnan, by simpa using hinf⟩
  obtain ⟨-, hs⟩ := saturatedRate_le q hr hfs
  obtain ⟨hfin, hle⟩ := saturatedRate_le_three_quarters q hr hfs
  by_cases hz : isZero fs = true
  · have hm : fmag fs = 0 := by simpa [isZero] using hz
    rw [hm, unitsOf_zero] at hle
    exact .inl (fdiv_zero_zero _ (by simpa [isZero] using unitsOf_eq_zero (by omega)) hz)
  · have hc : unitsOf (fmag threeQuarters) = 3 * 2 ^ 147 := by decide +kernel
    exact .inr (fdiv_range _ hfin hfs (by simpa using hz) hs (by decide) (by rw [hc]; omega))

/-- TWO_PI times at most three quarters is an angle. -/
theorem angleOk_twoPi_mul (q : Nat) {a : F32}
    (h : isNaN a = true ∨ (fge a f0 = true ∧ fle a threeQuarters = true)) :
    AngleOk (fmul q twoPi a) := by
  rcases h with hn | ⟨h0, h1⟩
  · exact .inl (by rw [fmul_nan q (.inr hn), isNaN_freshNaN])
  · have hle := (fle_iff_fmag_le h0 (by decide)).1 h1
    have hunits := unitsOf_mono hle (by decide)
    have hprod : unitsOf (fmag twoPi) * unitsOf (fmag threeQuarters) ≤
        unitsOf (fmag belowTwoPi) * 2 ^ 149 := by decide +kernel
    obtain ⟨hge, hlt⟩ := fmul_range q (a := twoPi) (c := belowTwoPi) (by decide)
      (isFinite_of_fle h0 h1 (by decide)) (by decide) h0 (by decide)
      ((Nat.mul_le_mul_left _ hunits).trans hprod)
    exact .inr ⟨hge, flt_twoPi_of_fle hlt⟩

/-- The increment of a rate that is not negative is an angle, whatever the sample rate is. -/
theorem angleOk_phaseInc (q : Nat) {rate : F32} (fs : F32) (hr : fge rate f0 = true) :
    AngleOk (phaseInc q rate fs) :=
  angleOk_twoPi_mul _ (saturatedRate_div_range q hr)

/-! Every step. -/

theorem angleOk_halfPi : AngleOk halfPi := .inr (by decide)

/-- Only PREPARE, TICK and SETRATE write a phase, the increment or the rate (R30). -/
theorem exec_keeps_lfoOk (i : Instr) (s t : State) (hl : LfoOk s.lfo) (h : exec i s = .next t) :
    LfoOk t.lfo := by
  have ⟨hpa, hpb, hinc, hrate⟩ := hl
  cases i with
  | prepare n fs ms =>
    obtain rfl := execPrepare_next.1 h
    exact ⟨angleOk_zero, angleOk_halfPi, angleOk_phaseInc _ fs hrate, hrate⟩
  | tick n xA xB =>
    obtain ⟨-, -, rfl⟩ := execTick_next.1 h
    exact ⟨angleOk_advancePhase _ hpa hinc, angleOk_advancePhase _ hpb hinc, hinc, hrate⟩
  | setrate hz =>
    obtain ⟨-, rfl⟩ := execSetrate_next.1 h
    have hr := nonNegative_range hz
    exact ⟨hpa, hpb, angleOk_phaseInc _ _ hr, hr⟩
  | _ =>
    obtain ⟨-, -, -, -, -, -, -, hph, hinc', hrate', -⟩ := writeSets _ s t h
    rw [LfoOk, hph (by simp [opcodeOf]), hinc' (by simp [opcodeOf]), hrate' (by simp [opcodeOf])]
    exact hl

/-- Settles O34: the three writers give angles, for whatever sample rate. -/
theorem stepKeepsLfoRange : Obligations.StepKeepsLfoRange := by
  intro s t h
  exact step_keeps (P := fun s => LfoOk s.lfo) (fun _ _ h => h) exec_keeps_lfoOk h

end Sys2Proof.Machine
end

section
/-! SUPPORT. The delay-line content law (20_memory.md R51): prepare and clear make the line silent,
a processed node's store and cursor step put its input in front, and no other command touches the
line. What a read of such a line gives (40_delay_buffer.md R91). -/

namespace Sys2Proof.Machine

/-! Words counted back from the cursor. -/

/-- Fewer than `L` words back from the cursor only the cursor's own word is the cursor's. -/
theorem modLen_sub_eq_self_iff {w k n : Nat} (hw : w < n) (hk : k < n) :
    modLen ((w : Int) - k) n = w ↔ k = 0 := by
  have hn : 0 < n := by omega
  constructor
  · intro h
    have hz : ((w : Int) - k) % n = (w : Int) % n := by
      rw [← modLen_cast _ hn, h, Int.emod_eq_of_lt (by omega) (by omega)]
    have hd : (n : Int) ∣ k := by simpa using Int.ModEq.dvd hz
    exact Nat.eq_zero_of_dvd_of_lt (by exact_mod_cast hd) hk
  · rintro rfl
    rw [modLen, Int.emod_eq_of_lt (by omega) (by omega)]
    omega

/-- A word counted back from the advanced cursor is one nearer to the old cursor. -/
theorem modLen_advanced_sub (w k n : Nat) :
    modLen (((w + 1) % n : Nat) - (k + 1 : Nat)) n = modLen (w - k) n := by
  unfold modLen
  push_cast
  rw [Int.emod_sub_emod]
  congr 2
  ring

/-- Words counted back from the cursor repeat after `L`. -/
theorem modLen_sub_mod (w k n : Nat) :
    modLen (w - (k % n + 1 : Nat)) n = modLen (w - (k + 1 : Nat)) n := by
  unfold modLen
  push_cast
  rw [show (w : Int) - (k % n + 1) = w - 1 - k % n by ring, Int.sub_emod_emod]
  congr 2
  ring

/-! The law of one line. -/

/-- The law is about `L`, the node's cursor and the node's bank. -/
theorem ContentLaw.congr {b b' : Dbe} {x : Node} {hist : List F32} (h : ContentLaw b x hist)
    (hl : b'.len = b.len) (hw : b'.w.get x = b.w.get x) (hb : b'.buf.get x = b.buf.get x) :
    ContentLaw b' x hist := by
  simpa only [ContentLaw, memRead, hl, hw, hb] using h

/-- The word `k + 1` behind the cursor holds the input of `k mod L + 1` samples ago. -/
theorem ContentLaw.memRead_behind {b : Dbe} {x : Node} {hist : List F32} (h : ContentLaw b x hist)
    (hl : 0 < b.len.toNat) (k : Nat) :
    memRead b.buf x (modLen ((b.w.get x).toNat - (k + 1 : Nat)) b.len.toNat) =
      hist.getD (k % b.len.toNat) f0 := by
  rw [← modLen_sub_mod]
  exact h (k % b.len.toNat + 1) (by omega) (Nat.mod_lt k hl)

/-- The zero-fill of an allocated bank up to `L` makes the line silent, wherever the cursor is. -/
theorem contentLaw_of_memZero {b : Dbe} {x : Node} {m : Memory} {alloc : Nat}
    (hb : b.buf = memZero m alloc b.len.toNat) (hx : x.index < alloc) (hl : 0 < b.len.toNat) :
    ContentLaw b x [] := by
  intro j _ _
  rw [hb, memRead_memZero, if_pos ⟨hx, modLen_lt _ hl⟩]
  rfl

theorem contentLaw_dbPrepare {p : Params} (hp : ParamsLegal p) {m n : Nat} {b : Dbe} {x : Node}
    (hx : x.index < (dbPrepare p m n b).alloc.toNat) : ContentLaw (dbPrepare p m n b) x [] := by
  obtain ⟨hmin, hmax, -, -⟩ := hp
  have hlen := dbPrepare_len_toNat p m n b hmin hmax
  rw [dbPrepare_alloc_toNat] at hx
  refine contentLaw_of_memZero (by rw [hlen, dbPrepare_buf]) hx ?_
  rw [hlen, clampN]
  omega

theorem contentLaw_dbClear {p : Params} {b : Dbe} {x : Node} (h : DbeRegsOk p b)
    (hx : x.index < b.alloc.toNat) : ContentLaw (dbClear b) x [] :=
  contentLaw_of_memZero (dbClear_buf b) hx (Nat.zero_lt_of_lt (h.w_lt x))

/-- The store at the cursor overwrites the oldest word of the line, and the step of the cursor makes
it the newest. -/
theorem contentLaw_dbProcess {p : Params} {b : Dbe} (h : DbeOk p b) (q n : Nat)
    (ins mods : Pair F32) {x : Node} {hist : List F32} (hc : ContentLaw b x hist) :
    ContentLaw (dbProcess q n ins mods b).2 x
      (if isProcessed b n x then ins.get x :: hist else hist) := by
  obtain ⟨⟨hwf, -⟩, hregs⟩ := h
  by_cases hp : isProcessed b n x = true
  · rw [if_pos hp]
    intro j hj hjl
    obtain ⟨k, rfl⟩ : ∃ k, j = k + 1 := ⟨j - 1, by omega⟩
    rw [dbProcess_len] at hjl ⊢
    rw [dbProcess_w_toNat q n ins mods hregs, if_pos ((isProcessed_iff b n x).1 hp),
      modLen_advanced_sub, memRead_dbProcess q n ins mods b hwf, Nat.add_sub_cancel]
    rcases k with - | k
    · rw [if_pos ⟨hp, (modLen_sub_eq_self_iff (hregs.w_lt x) hjl).2 rfl⟩, List.getD_cons_zero]
    · rw [if_neg fun hw => Nat.succ_ne_zero k ((modLen_sub_eq_self_iff (hregs.w_lt x) hjl).1 hw.2),
        List.getD_cons_succ]
      exact hc (k + 1) (by omega) (by omega)
  · rw [if_neg hp]
    exact hc.congr (dbProcess_len ..) (by rw [dbProcess_w, if_neg hp])
      (by rw [dbProcess_buf, if_neg hp])

/-! The law and the commands. -/

/-- After a prepare or clear the line of an allocated node is silent (R81, R84, R121, R125). -/
theorem exec_silences {i : Instr} {s t : State} {x : Node} (hs : s.Inv) (h : exec i s = .next t)
    (hi : opcodeOf i ∈ ([0x01, 0x02, 0x10, 0x11] : List (BitVec 8)))
    (hx : x.index < t.db.alloc.toNat) : ContentLaw t.db x [] := by
  have ⟨hp, _⟩ := hs
  cases i with
  | dbprep n maxLen =>
    obtain rfl := execDbprep_next.1 h
    exact contentLaw_dbPrepare hp hx
  | dbclr =>
    obtain ⟨hr, rfl⟩ := execDbclr_next.1 h
    exact contentLaw_dbClear (hs.dbeOk hr).2 hx
  | prepare n fs ms =>
    obtain rfl := execPrepare_next.1 h
    exact (contentLaw_dbPrepare hp hx).congr rfl rfl rfl
  | clear =>
    obtain ⟨hr, rfl⟩ := execClear_next.1 h
    exact contentLaw_dbClear (hs.dbeOk (hs.dbReady hr)).2 hx
  | _ => simp [opcodeOf] at hi

/-- Every command keeps the law, for the history it leaves. -/
theorem exec_keeps_contentLaw {i : Instr} {s t : State} {x : Node} {hist : List F32} (hs : s.Inv)
    (h : exec i s = .next t) (hx : x.index < t.db.alloc.toNat) (hc : ContentLaw s.db x hist) :
    ContentLaw t.db x (historyAfter i s x hist) := by
  cases i with
  | dbprep => exact exec_silences hs h (by simp [opcodeOf]) hx
  | dbclr => exact exec_silences hs h (by simp [opcodeOf]) hx
  | prepare => exact exec_silences hs h (by simp [opcodeOf]) hx
  | clear => exact exec_silences hs h (by simp [opcodeOf]) hx
  | dbproc n inA inB modA modB =>
    obtain ⟨hr, -, rfl⟩ := execDbproc_next.1 h
    exact contentLaw_dbProcess (hs.dbeOk hr) _ _ _ _ hc
  | tick n xA xB =>
    obtain ⟨hr, -, rfl⟩ := execTick_next.1 h
    exact contentLaw_dbProcess (hs.dbeOk (hs.dbReady hr)) _ _ _ _ hc
  | _ =>
    obtain ⟨-, -, hregs, -, hw, -, hbuf, -⟩ := writeSets _ s t h
    exact hc.congr (hregs (by simp [opcodeOf])).2.1 (by rw [hw (by simp [opcodeOf])])
      (by rw [hbuf (by simp [opcodeOf])])

/-- Settles O39: the silent line and the kept law, command by command. -/
theorem delayLineContentLaw : Obligations.DelayLineContentLaw := by
  intro i s t x hs h hx
  exact ⟨fun hi => exec_silences hs h hi hx, fun hist hc => exec_keeps_contentLaw hs h hx hc⟩

/-! Reading the line. -/

/-- Settles O40: the two samples are the words `d + k` and `d + k + 1` behind the cursor. -/
theorem delayedReadLaw : Obligations.DelayedReadLaw := by
  intro q p b x m hist hregs hc
  have hl : 0 < b.len.toNat := Nat.zero_lt_of_lt (hregs.w_lt x)
  have hd := (hregs.d_pos x).1
  have h0 := hc.memRead_behind hl ((b.d.get x).toNat + modInt m - 1)
  have h1 := hc.memRead_behind hl ((b.d.get x).toNat + modInt m)
  rw [show (b.d.get x).toNat + modInt m - 1 + 1 = (b.d.get x).toNat + modInt m + 0 by omega] at h0
  dsimp only
  rw [dbRead, readIndex_eq b x _ 0 hl, readIndex_eq b x _ 1 hl, h0, h1]

end Sys2Proof.Machine
end

section
/-! SUPPORT. A bank in canonical form is determined by what it reads, and the zero-fill is a fold of
stores (20_memory.md R42, R43, R49; the canonical form is log entry 6's). -/

namespace Sys2Proof.Machine

@[simp] theorem bankRead_cons_self (c : Nat × F32) (t : Bank) : bankRead (c :: t) c.1 = c.2 :=
  if_pos rfl

theorem bankRead_cons_of_ne {c : Nat × F32} {i : Nat} (t : Bank) (h : c.1 ≠ i) :
    bankRead (c :: t) i = bankRead t i := if_neg h

/-- A word that does not read as unlisted has an entry at or below its index. -/
theorem exists_mem_le_of_bankRead_ne {m : Bank} {i : Nat} (h : bankRead m i ≠ unlisted) :
    ∃ e ∈ m, e.1 ≤ i := by
  by_contra hno
  push Not at hno
  exact h (bankRead_of_lt m i hno)

/-- In canonical form the first entry of a bank is at or below an index that does not read as
unlisted. -/
theorem head_le_of_bankRead_ne {c : Nat × F32} {t : Bank} {i : Nat} (hwf : bankWf (c :: t) = true)
    (h : bankRead (c :: t) i ≠ unlisted) : c.1 ≤ i := by
  obtain ⟨-, hrise, -⟩ := bankWf_cons hwf
  obtain ⟨e, he, hle⟩ := exists_mem_le_of_bankRead_ne h
  rcases List.mem_cons.1 he with rfl | he
  · exact hle
  · exact (hrise e he).le.trans hle

/-- Settles O38, by induction on one bank: both banks start at the least index that does not read as
unlisted, and above it the tails read alike. -/
theorem canonicalFormIsUnique : Obligations.CanonicalFormIsUnique := by
  intro m
  induction m with
  | nil =>
    rintro (- | ⟨c', t'⟩) - hwf' h
    · rfl
    · obtain ⟨hne', -, -⟩ := bankWf_cons hwf'
      exact absurd ((h c'.1).trans (bankRead_cons_self c' t')).symm hne'
  | cons c t ih =>
    rintro (- | ⟨c', t'⟩) hwf hwf' h
    · obtain ⟨hne, -, -⟩ := bankWf_cons hwf
      exact absurd ((bankRead_cons_self c t).symm.trans (h c.1)) hne
    · obtain ⟨hne, hrise, hwft⟩ := bankWf_cons hwf
      obtain ⟨hne', hrise', hwft'⟩ := bankWf_cons hwf'
      have hle : c'.1 ≤ c.1 := head_le_of_bankRead_ne hwf' (by rwa [← h, bankRead_cons_self])
      have hge : c.1 ≤ c'.1 := head_le_of_bankRead_ne hwf (by rwa [h, bankRead_cons_self])
      have hidx : c.1 = c'.1 := Nat.le_antisymm hge hle
      have hword : c.2 = c'.2 := by
        rw [← bankRead_cons_self c t, h, hidx, bankRead_cons_self]
      have htail (i : Nat) : bankRead t i = bankRead t' i := by
        rcases Nat.lt_or_ge c.1 i with hi | hi
        · rw [← bankRead_cons_of_ne t hi.ne, h, bankRead_cons_of_ne t' (hidx ▸ hi).ne]
        · rw [bankRead_of_lt t i fun e he => hi.trans_lt (hrise e he),
            bankRead_of_lt t' i fun e he => (hidx ▸ hi).trans_lt (hrise' e he)]
      rw [Prod.ext hidx hword, ih t' hwft hwft' htail]

/-- Filling one word more is one store more. -/
theorem bankZero_succ (n : Nat) {m : Bank} (hm : bankWf m = true) :
    bankZero (n + 1) m = bankWrite (bankZero n m) n f0 := by
  have hn := bankZero_wf n m hm
  refine canonicalFormIsUnique _ _ (bankZero_wf (n + 1) m hm) (bankWrite_wf _ hn n f0) fun i => ?_
  rw [bankRead_bankWrite _ hn, bankRead_bankZero, bankRead_bankZero]
  rcases Nat.lt_trichotomy i n with h | rfl | h
  · rw [if_pos (h.trans n.lt_succ_self), if_neg h.ne, if_pos h]
  · rw [if_pos i.lt_succ_self, if_pos rfl]
  · rw [if_neg (by omega), if_neg h.ne', if_neg (by omega)]

/-- Settles O37, by induction on the length. -/
theorem zeroFillIsStores : Obligations.ZeroFillIsStores := by
  intro m len hm
  induction len with
  | zero => exact List.filter_eq_self.2 (by simp)
  | succ n ih => rw [bankZero_succ n hm, ih, List.range_succ, List.foldl_append]; rfl

end Sys2Proof.Machine
end

section
/-! SUPPORT. The words each command stores to (20_memory.md R49), and when a command stops
(60_exceptions.md R173, R175; 20_memory.md R48). -/

namespace Sys2Proof.Machine

/-! The stores. -/

theorem memRead_dbPrepare (p : Params) (m n : Nat) (b : Dbe) (c : Node) (j : Nat) :
    memRead (dbPrepare p m n b).buf c j =
      if c.index < min n 2 ∧ j < min (max m 2) p.maxLen then f0 else memRead b.buf c j :=
  memRead_memZero b.buf (min n 2) (clampN m 2 p.maxLen) c j

theorem memRead_dbClear (b : Dbe) (c : Node) (j : Nat) :
    memRead (dbClear b).buf c j =
      if c.index < b.alloc.toNat ∧ j < b.len.toNat then f0 else memRead b.buf c j :=
  memRead_memZero b.buf b.alloc.toNat b.len.toNat c j

theorem memRead_dbProcess_of_not_stored (q n : Nat) (ins mods : Pair F32) {b : Dbe}
    (hwf : Memory.wf b.buf = true) {c : Node} {j : Nat}
    (h : ¬ (c.index < min n b.alloc.toNat ∧ j = (b.w.get c).toNat)) :
    memRead (dbProcess q n ins mods b).2.buf c j = memRead b.buf c j := by
  rw [memRead_dbProcess q n ins mods b hwf, if_neg]
  rwa [isProcessed_iff]

/-- Settles O27: the zero-fills, the stores of `DB.process`, and the commands that leave the
banks. -/
theorem memoryFrame : Obligations.MemoryFrame := by
  intro i s t _ hwf h c j hj
  cases i with
  | dbprep n maxLen =>
    obtain rfl := execDbprep_next.1 h
    exact (memRead_dbPrepare ..).trans (if_neg hj)
  | prepare n fs ms =>
    obtain rfl := execPrepare_next.1 h
    exact (memRead_dbPrepare ..).trans (if_neg hj)
  | dbclr =>
    obtain ⟨-, rfl⟩ := execDbclr_next.1 h
    exact (memRead_dbClear ..).trans (if_neg hj)
  | clear =>
    obtain ⟨-, rfl⟩ := execClear_next.1 h
    exact (memRead_dbClear ..).trans (if_neg hj)
  | dbproc n inA inB modA modB =>
    obtain ⟨-, -, rfl⟩ := execDbproc_next.1 h
    exact memRead_dbProcess_of_not_stored _ _ _ _ hwf hj
  | tick n xA xB =>
    obtain ⟨-, -, rfl⟩ := execTick_next.1 h
    exact memRead_dbProcess_of_not_stored _ _ _ _ hwf hj
  | _ =>
    obtain ⟨-, -, -, -, -, -, hbuf, -⟩ := writeSets _ s t h
    rw [hbuf (by simp [opcodeOf])]

/-! The stops. -/

theorem nodeOf_not_wellFormed {n : BitVec 8} {f : Bool} {g : F32}
    (h : (Instr.setgain n f g).wellFormed = false) : nodeOf n = none := by
  simp only [Instr.wellFormed, decide_eq_false_iff_not] at h
  rw [nodeOf, if_neg (by omega), if_neg (by omega)]

theorem waveOf_not_wellFormed {n : BitVec 8} (h : (Instr.settype n).wellFormed = false) :
    waveOf n = none := by
  simp only [Instr.wellFormed, decide_eq_false_iff_not] at h
  rw [waveOf, if_neg (by omega), if_neg (by omega), if_neg (by omega)]

/-- `i` needs a ready bit that is 0 in `s` (R173). -/
def NeedsUnsetBit (i : Instr) (s : State) : Prop :=
  (opcodeOf i ∈ ([0x02, 0x03, 0x04] : List (BitVec 8)) ∧ s.db.ready = false) ∨
  (opcodeOf i ∈ ([0x11, 0x12, 0x20, 0x21, 0x22, 0x23, 0x24] : List (BitVec 8)) ∧
    s.net.ready = false)

/-- The command answers a next state, or it faults for the ready bit it needs. -/
def NextOrUnready (i : Instr) (s : State) : Prop :=
  (∃ t, exec i s = .next t) ∨ (exec i s = .fault .notPrepared ∧ NeedsUnsetBit i s)

/-- A command of the `dbReady` column that answers a next state once the bit is set. -/
theorem nextOrUnready_of_needDb {i : Instr} {s : State}
    (hop : opcodeOf i ∈ ([0x02, 0x03, 0x04] : List (BitVec 8)))
    (h : s.db.ready = true → ∃ t, exec i s = .next t) : NextOrUnready i s := by
  cases hr : s.db.ready with
  | true => exact .inl (h hr)
  | false =>
    obtain ⟨r, he⟩ := exec_eq_needDb s hop
    exact .inr ⟨by rw [he, needDb_unready hr], .inl ⟨hop, hr⟩⟩

/-- A command of the `fnReady` column that answers a next state once the bit is set. -/
theorem nextOrUnready_of_needFn {i : Instr} {s : State} (hi : i.wellFormed = true)
    (hop : opcodeOf i ∈ ([0x11, 0x12, 0x20, 0x21, 0x22, 0x23, 0x24] : List (BitVec 8)))
    (h : s.net.ready = true → ∃ t, exec i s = .next t) : NextOrUnready i s := by
  cases hr : s.net.ready with
  | true => exact .inl (h hr)
  | false =>
    obtain ⟨r, he⟩ := exec_eq_needFn s hi hop
    exact .inr ⟨by rw [he, needFn_unready hr], .inr ⟨hop, hr⟩⟩

/-- Under the invariant no accessed word is missing, so only a ready bit stops a command. -/
theorem exec_nextOrUnready (i : Instr) {s : State} (hs : s.Inv) : NextOrUnready i s := by
  cases i with
  | dbprep => exact .inl ⟨_, execDbprep_next.2 rfl⟩
  | prepare => exact .inl ⟨_, execPrepare_next.2 rfl⟩
  | dbclr =>
    exact nextOrUnready_of_needDb (by simp [opcodeOf]) fun hr => ⟨_, execDbclr_next.2 ⟨hr, rfl⟩⟩
  | dbsetd =>
    exact nextOrUnready_of_needDb (by simp [opcodeOf]) fun hr => ⟨_, execDbsetd_next.2 ⟨hr, rfl⟩⟩
  | dbproc n =>
    exact nextOrUnready_of_needDb (by simp [opcodeOf]) fun hr =>
      ⟨_, execDbproc_next.2 ⟨hr, wordsExist_of_regsOk (hs.dbeOk hr).2 n.toNat, rfl⟩⟩
  | clear =>
    exact nextOrUnready_of_needFn rfl (by simp [opcodeOf]) fun hr =>
      ⟨_, execClear_next.2 ⟨hr, rfl⟩⟩
  | tick n =>
    exact nextOrUnready_of_needFn rfl (by simp [opcodeOf]) fun hr =>
      ⟨_, execTick_next.2 ⟨hr, wordsExist_of_regsOk (hs.dbeOk (hs.dbReady hr)).2 n.toNat, rfl⟩⟩
  | setofs =>
    exact nextOrUnready_of_needFn rfl (by simp [opcodeOf]) fun hr =>
      ⟨_, execSetofs_next.2 ⟨hr, rfl⟩⟩
  | setdep =>
    exact nextOrUnready_of_needFn rfl (by simp [opcodeOf]) fun hr =>
      ⟨_, execSetdep_next.2 ⟨hr, rfl⟩⟩
  | setrate =>
    exact nextOrUnready_of_needFn rfl (by simp [opcodeOf]) fun hr =>
      ⟨_, execSetrate_next.2 ⟨hr, rfl⟩⟩
  | setgain n force gain =>
    by_cases hi : (Instr.setgain n force gain).wellFormed = true
    · obtain ⟨x, hx⟩ := nodeOf_wellFormed hi
      exact nextOrUnready_of_needFn hi (by simp [opcodeOf]) fun hr =>
        ⟨_, execSetgain_next.2 (.inr ⟨x, hx, hr, rfl⟩)⟩
    · have hx := nodeOf_not_wellFormed (by simpa using hi)
      exact .inl ⟨s, execSetgain_next.2 (.inl ⟨hx, rfl⟩)⟩
  | settype n =>
    by_cases hi : (Instr.settype n).wellFormed = true
    · obtain ⟨v, hv⟩ := waveOf_wellFormed hi
      exact nextOrUnready_of_needFn hi (by simp [opcodeOf]) fun hr =>
        ⟨_, execSettype_next.2 (.inr ⟨v, hv, hr, rfl⟩)⟩
    · have hv := waveOf_not_wellFormed (by simpa using hi)
      exact .inl ⟨s, execSettype_next.2 (.inl ⟨hv, rfl⟩)⟩

/-- Settles O10: a command either completes or faults for its ready bit. -/
theorem commandsStopOnlyUnready : Obligations.CommandsStopOnlyUnready := by
  intro s i hs
  rcases exec_nextOrUnready i hs with ⟨t, ht⟩ | ⟨hf, hbit⟩
  · rw [ht]
    exact ⟨nofun, nofun, fun _ => ⟨t, rfl⟩⟩
  · rw [hf]
    refine ⟨fun r hr => ?_, nofun, fun hnet => ?_⟩
    · cases hr
      exact ⟨rfl, hbit⟩
    · rcases hbit with ⟨-, hdb⟩ | ⟨-, hnet'⟩
      · rw [hs.dbReady hnet] at hdb
        cases hdb
      · rw [hnet] at hnet'
        cases hnet'

end Sys2Proof.Machine
end

section
/-! SUPPORT. What DBPROC's packet carries for a node (40_delay_buffer.md R88, R90), that the two
nodes do not meet, and the interpolation at weight +0.0 (R93), which makes the engine a pure integer
delay. -/

namespace Sys2Proof.Machine

/-! The packet. -/

/-- The value DBPROC emits for a node: its read of the engine before the command, or +0.0 (R88,
R90). -/
def dbprocLane (n : BitVec 8) (mods : Pair F32) (s : State) (x : Node) : F32 :=
  if isProcessed s.db n.toNat x then dbRead (s.free + 5 * x.index) s.db x (mods.get x) else f0

theorem dbProcess_getD (s : State) (n : BitVec 8) (ins mods : Pair F32) (x : Node) :
    ((dbProcess s.free n.toNat ins mods s.db).1.get x).getD f0 = dbprocLane n mods s x := by
  rw [dbProcess_out, dbprocLane]
  cases x <;> simp only [Pair.get_a, Pair.get_b] <;> split <;> rfl

theorem execDbproc_packet {n : BitVec 8} {a b c d : F32} {s t : State}
    (h : exec (.dbproc n a b c d) s = .next t) :
    ∃ p, t.out = s.out ++ [p] ∧ ∀ x, lane p x = dbprocLane n ⟨c, d⟩ s x := by
  obtain ⟨-, -, rfl⟩ := execDbproc_next.1 h
  refine ⟨_, rfl, fun x => ?_⟩
  rw [lane_packet, ← dbProcess_getD s n ⟨a, b⟩]
  cases x <;> rfl

/-! The two nodes. -/

/-- Settles O31: lane, cursor and bank of a node after DBPROC are given by the node's own part of
the state and of the operands. -/
theorem nodesDoNotSeeEachOther : Obligations.NodesDoNotSeeEachOther := by
  intro x n a b c d a' b' c' d' s s' t t' hlen halloc hfree hw hd hbuf hin hmod ht ht'
  obtain ⟨p, hp, hlane⟩ := execDbproc_packet ht
  obtain ⟨p', hp', hlane'⟩ := execDbproc_packet ht'
  obtain ⟨-, -, rfl⟩ := execDbproc_next.1 ht
  obtain ⟨-, -, rfl⟩ := execDbproc_next.1 ht'
  have hproc : isProcessed s.db n.toNat x = isProcessed s'.db n.toNat x := by
    rw [isProcessed, isProcessed, processedNodes, processedNodes, halloc]
  refine ⟨?_, ?_, p, p', hp, hp', ?_⟩
  · rw [emit_db, emit_db, spendFree_db, spendFree_db, dbProcess_w, dbProcess_w, hproc, hw, hlen]
  · rw [emit_db, emit_db, spendFree_db, spendFree_db, dbProcess_buf, dbProcess_buf, hproc, hbuf,
      hw, hin]
  · rw [hlane, hlane', dbprocLane, dbprocLane, hproc, hmod, hfree,
      dbRead_congr _ x _ hlen hw hd hbuf]

/-! The interpolation at weight +0.0. -/

/-- `s0 * 1.0 + s1 * 0.0`. -/
theorem interpolate_zero_weight (q : Nat) (s0 s1 : F32) :
    interpolate q s0 s1 f0 = fadd (q + 3) (fmul (q + 1) s0 f1) (fmul (q + 2) s1 f0) := by
  have h : fsub q f1 f0 = f1 := by
    rw [fsub_finite q (by decide) (by decide)]
    decide +kernel
  rw [interpolate, h]

theorem isFinite_of_isZero {a : F32} (h : isZero a = true) : isFinite a = true := by
  have hm : fmag a = 0 := by simpa [isZero] using h
  simp [isFinite, hm, infMag]

theorem isNaN_of_isZero {a : F32} (h : isZero a = true) : isNaN a = false :=
  ((isFinite_iff a).1 (isFinite_of_isZero h)).1

/-- A first sample that is neither a zero nor NaN comes out as it is. -/
theorem interpolate_zero_weight_of_nonzero (q : Nat) {s0 s1 : F32} (h1 : isFinite s1 = true)
    (hn : isNaN s0 = false) (hz : isZero s0 = false) : interpolate q s0 s1 f0 = s0 := by
  rw [interpolate_zero_weight, fmul_one _ hn, fadd_zero _ hn hz (fmul_zero _ h1 (by decide))]

/-- The exact product of a finite value and +0.0 is the zero with the value's sign. -/
theorem fmul_posZero (q : Nat) {a : F32} (ha : isFinite a = true) :
    fmul q a f0 = fpack (fsign a) 0 := by
  rw [fmul_finite q ha (by decide), show fmag f0 = 0 by decide, show fsign f0 = false by decide,
    unitsOf_zero, Nat.mul_zero, roundMag_zero (Nat.two_pow_pos 149), Bool.bne_false]

/-- A first sample that is a zero comes out as a zero, negative only if both samples have the sign
bit. -/
theorem interpolate_zero_weight_of_zero (q : Nat) {s0 s1 : F32} (h1 : isFinite s1 = true)
    (hz : isZero s0 = true) :
    interpolate q s0 s1 f0 = if fsign s0 && fsign s1 then 0x80000000#32 else f0 := by
  have hprod := fmul_zero (q + 2) h1 (show isZero f0 = true by decide)
  rw [interpolate_zero_weight, fmul_one _ (isNaN_of_isZero hz),
    fadd_finite _ (isFinite_of_isZero hz) (isFinite_of_isZero hprod), fval_eq_zero.2 hz,
    fval_eq_zero.2 hprod, fmul_posZero _ h1, fsign_fpack _ (by decide)]
  cases fsign s0 && fsign s1 <;> rfl

/-- Infinity times zero is NaN (R8), and so is NaN. -/
theorem isNaN_fmul_zero (q : Nat) {a : F32} (h : isFinite a = false) :
    isNaN (fmul q a f0) = true := by
  have hq : fmul q a f0 = freshNaN q := by
    by_cases hn : isNaN a = true
    · exact fmul_nan q (.inl hn)
    · have hi : isInf a = true := by
        by_contra hi
        rw [(isFinite_iff a).2 ⟨by simpa using hn, by simpa using hi⟩] at h
        cases h
      simp [fmul, hn, hi, show isNaN f0 = false by decide, show isZero f0 = true by decide]
  rw [hq, isNaN_freshNaN]

theorem interpolate_zero_weight_nan (q : Nat) {s0 s1 : F32}
    (h : isFinite s1 = false ∨ isNaN s0 = true) : isNaN (interpolate q s0 s1 f0) = true := by
  have hn : isNaN (fmul (q + 1) s0 f1) = true ∨ isNaN (fmul (q + 2) s1 f0) = true := by
    rcases h with h | h
    · exact .inr (isNaN_fmul_zero _ h)
    · exact .inl (by rw [fmul_nan _ (.inl h), isNaN_freshNaN])
  rw [interpolate_zero_weight, fadd_nan _ hn, isNaN_freshNaN]

/-! The pure integer delay. -/

/-- A modulation of +0.0, below 0 or NaN is clamped to +0.0 (R89). -/
theorem modClamp_eq_zero {m : F32} (h : m = f0 ∨ flt m f0 = true ∨ isNaN m = true) :
    modClamp m = f0 := by
  rcases h with rfl | h | h
  · decide
  · exact modClamp_of_nan_or_neg (.inr h)
  · exact modClamp_of_nan_or_neg (.inl h)

/-- Such a modulation reads the inputs of `d` and `d + 1` samples ago at weight +0.0. -/
theorem dbRead_unmodulated (q : Nat) {p : Params} {b : Dbe} {x : Node} {m : F32} {hist : List F32}
    (hregs : DbeRegsOk p b) (hc : ContentLaw b x hist) (hm : modClamp m = f0) :
    dbRead q b x m = interpolate (q + 1) (hist.getD ((b.d.get x).toNat - 1) f0)
      (hist.getD ((b.d.get x).toNat % b.len.toNat) f0) f0 := by
  obtain ⟨-, hd⟩ := hregs.d_pos x
  have hint : modInt m = 0 := by
    rw [modInt, hm]
    decide
  rw [delayedReadLaw q p b x m hist hregs hc, hint, modFrac_of_clamp_zero q hm,
    Nat.add_zero (b.d.get x).toNat, Nat.mod_eq_of_lt ((Nat.sub_le _ 1).trans_lt hd)]

/-- Settles O41: the node's lane is such a read. -/
theorem pureIntegerDelay : Obligations.PureIntegerDelay := by
  intro n inA inB modA modB s t x hist hs hc hx hm h
  obtain ⟨p, hp, hlane⟩ := execDbproc_packet h
  obtain ⟨hr, -, -⟩ := execDbproc_next.1 h
  have hread := dbRead_unmodulated (s.free + 5 * x.index) (hs.dbeOk hr).2 hc (modClamp_eq_zero hm)
  refine ⟨p, hp, ?_⟩
  rw [hlane, dbprocLane, if_pos ((isProcessed_iff s.db n.toNat x).2 hx), hread]
  exact ⟨interpolate_zero_weight_of_nonzero _, interpolate_zero_weight_of_zero _,
    interpolate_zero_weight_nan _⟩

end Sys2Proof.Machine
end

section
/-! SUPPORT. The decoder and the encoder against each other (30_encoding.md R60 to R69): a row of the
match and mask table accepts exactly the encodings of its own terms, so a word of a defined opcode
passes the mask test exactly when a term encodes to it. -/

namespace Sys2Proof

/-! The rows of the table. -/

theorem ofBool_flagOf (f : BitVec 1) : BitVec.ofBool (flagOf f) = f := by
  revert f
  decide

theorem encode_eq_iff (i : Instr) (w : Cmd) : encode i = w ↔ fields w = fieldsOf i :=
  ⟨fun h => by rw [← h, fields_encode], fun h => by rw [encode, ← h, packFields_fields]⟩

/-! The masks of the four field widths, all ones. -/

theorem and_ones_1 (x : BitVec 1) : x &&& 0x1#1 = x := BitVec.and_allOnes
theorem and_ones_8 (x : BitVec 8) : x &&& 0xFF#8 = x := BitVec.and_allOnes
theorem and_ones_15 (x : BitVec 15) : x &&& 0x7FFF#15 = x := BitVec.and_allOnes
theorem and_ones_32 (x : BitVec 32) : x &&& 0xFFFFFFFF#32 = x := BitVec.and_allOnes

/-- What a row says of a word (R65): the mask test passes exactly when the word is the encoding of the
term its fields give, and the constraint on `n` is the well-formedness of that term. -/
structure Row.Faithful (r : Row) : Prop where
  mask_test : ∀ w, w &&& r.mask = r.pattern ↔ encode (r.build (fields w)) = w
  legal : ∀ x, r.legal x.n = (r.build x).wellFormed

/-- A mask is all ones in the fields its row fixes and zero in the live ones. So the test leaves one
equation for each fixed field, and the encoding gives that field the same constant. -/
theorem rows_faithful : ∀ r ∈ rows, r.Faithful := by
  intro r hr
  fin_cases hr
  all_goals
    refine ⟨fun w => ?_, fun _ => rfl⟩
    rw [mask_test_iff, fields_and, encode_eq_iff]
    obtain ⟨op, n, rsv, f, a0, a1, a2, a3⟩ := fields w
    simp [fields, fieldsOf, fieldsWith, opcodeOf, ofBool_flagOf, and_ones_1, and_ones_8, and_ones_15,
      and_ones_32]

/-- The row found for the word of a term gives the term back from the word's fields (R64). -/
theorem exists_row_of_encode (i : Instr) :
    ∃ r, rowOf (encode i) = some r ∧ r.build (fields (encode i)) = i := by
  simp only [rowOf, fields_encode]
  cases i with
  | setofs force ms => exact ⟨_, rfl, congrArg (Instr.setofs · ms) (flagOf_ofBool force)⟩
  | setdep force ms => exact ⟨_, rfl, congrArg (Instr.setdep · ms) (flagOf_ofBool force)⟩
  | setgain n force gain => exact ⟨_, rfl, congrArg (Instr.setgain n · gain) (flagOf_ofBool force)⟩
  | _ => exact ⟨_, rfl, rfl⟩

theorem mem_rows_of_rowOf {w : Cmd} {r : Row} (h : rowOf w = some r) : r ∈ rows :=
  List.mem_of_find?_eq_some h

/-- A word has a row exactly when its opcode is one of the twelve (R64, R66). -/
theorem rowOf_eq_none_iff (w : Cmd) : rowOf w = none ↔ (fields w).op ∉ definedOpcodes := by
  have hops : definedOpcodes = rows.map fun r => (fields r.pattern).op := by decide
  simp [rowOf, hops]

/-- The opcode of a term's word is a defined one (R64). -/
theorem op_encode_mem (i : Instr) : (fields (encode i)).op ∈ definedOpcodes := by
  by_contra hop
  obtain ⟨r, hr, -⟩ := exists_row_of_encode i
  rw [(rowOf_eq_none_iff _).2 hop] at hr
  cases hr

/-- No two terms share a word, ill-formed ones included. -/
theorem encode_injective : Function.Injective encode := by
  intro i j h
  obtain ⟨r, hr, hi⟩ := exists_row_of_encode i
  obtain ⟨r', hr', hj⟩ := exists_row_of_encode j
  rw [h, hr'] at hr
  cases hr
  rw [← hi, h, hj]

/-! The decoder. -/

/-- The decoder on a word that has a row: the row's term if the word is its encoding and the term is
well-formed (R66). -/
theorem decode_of_row {w : Cmd} {r : Row} (h : rowOf w = some r) :
    decode w =
      if encode (r.build (fields w)) = w then
        if (r.build (fields w)).wellFormed then .cmd (r.build (fields w))
        else .illegal .reservedFieldValue
      else .illegal .nonZeroReservedField := by
  obtain ⟨htest, hlegal⟩ := rows_faithful r (mem_rows_of_rowOf h)
  simp only [decode, h, ne_eq, htest, hlegal, ite_not]

/-- The decoder on the word of any term, well-formed or not (R66, R68, R69). -/
theorem decode_encode (i : Instr) :
    decode (encode i) = if i.wellFormed then .cmd i else .illegal .reservedFieldValue := by
  obtain ⟨r, hr, hi⟩ := exists_row_of_encode i
  rw [decode_of_row hr, hi, if_pos rfl]

/-- A word of no defined opcode (R64). -/
theorem decode_of_reservedOpcode {w : Cmd} (h : (fields w).op ∉ definedOpcodes) :
    decode w = .illegal .reservedOpcode := by
  rw [decode, (rowOf_eq_none_iff w).2 h]

/-- A word of a defined opcode that no term encodes to (R61). -/
theorem decode_of_not_encoding {w : Cmd} (hop : (fields w).op ∈ definedOpcodes)
    (h : ∀ i, encode i ≠ w) : decode w = .illegal .nonZeroReservedField := by
  obtain ⟨r, hr⟩ := Option.ne_none_iff_exists'.1 (mt (rowOf_eq_none_iff w).1 (not_not.2 hop))
  rw [decode_of_row hr, if_neg (h _)]

/-- The three kinds of word: no defined opcode, a bit set that must be zero, the word of a term. -/
theorem word_cases (w : Cmd) :
    (fields w).op ∉ definedOpcodes ∨
    ((fields w).op ∈ definedOpcodes ∧ ∀ i, encode i ≠ w) ∨
    ∃ i, encode i = w := by
  by_cases hop : (fields w).op ∈ definedOpcodes
  · by_cases hw : ∃ i, encode i = w
    · exact .inr (.inr hw)
    · exact .inr (.inl ⟨hop, not_exists.1 hw⟩)
  · exact .inl hop

/-- Settles O1: the decoder on the word of a term. -/
theorem decodeOfEncode : Obligations.DecodeOfEncode := by
  intro i hi
  rw [decode_encode, if_pos hi]

/-- Settles O2: of the three kinds of word only that of a term can decode, and then the term is
well-formed. -/
theorem encodeOfDecode : Obligations.EncodeOfDecode := by
  intro w i h
  rcases word_cases w with hop | ⟨hop, hw⟩ | ⟨j, rfl⟩
  · rw [decode_of_reservedOpcode hop] at h
    cases h
  · rw [decode_of_not_encoding hop hw] at h
    cases h
  · rw [decode_encode] at h
    split at h
    next hj =>
      cases h
      exact ⟨hj, rfl⟩
    next => cases h

/-- Settles O3: each of the three kinds of word meets one of the reasons' conditions and not the other
two; the word of a term is legal when the term is well-formed. -/
theorem illegalWordsByReason : Obligations.IllegalWordsByReason := by
  intro w
  rcases word_cases w with hop | ⟨hop, hw⟩ | ⟨i, rfl⟩
  · have hw : ∀ i, encode i ≠ w := by
      rintro i rfl
      exact hop (op_encode_mem i)
    simp [decode_of_reservedOpcode hop, hop, hw]
  · simp [decode_of_not_encoding hop hw, hop, hw]
  · rw [decode_encode]
    cases hi : i.wellFormed <;> simp [op_encode_mem, encode_injective.eq_iff, hi]

/-- Settles O4, by running the decoder on the ten words. -/
theorem specWordsDecode : Obligations.SpecWordsDecode := by
  unfold Obligations.SpecWordsDecode
  decide

end Sys2Proof
end

section
/-! SUPPORT. Illegal words and reserved terms are discarded (30_encoding.md R72), each processing command
emits one packet (R75), and a channel count acts only through the number of processed nodes
(40_delay_buffer.md R90). -/

namespace Sys2Proof.Machine

/-- Settles O5: the discard is one of the things a step can do. -/
theorem illegalCommandIsDiscarded : Obligations.IllegalCommandIsDiscarded := by
  intro s w rest r hport hw
  exact step_next.2 (.inr ⟨w, rest, hport, .inl ⟨r, hw, rfl⟩⟩)

/-- A reserved node or waveform code names no register, and its command is discarded (R68, R69, R72). -/
theorem exec_not_wellFormed {i : Instr} (s : State) (hi : i.wellFormed = false) :
    exec i s = .next s := by
  cases i with
  | setgain n force gain => exact execSetgain_next.2 (.inl ⟨nodeOf_not_wellFormed hi, rfl⟩)
  | settype n => exact execSettype_next.2 (.inl ⟨waveOf_not_wellFormed hi, rfl⟩)
  | _ => cases hi

/-- Settles O6: the term is discarded, and so is its word. -/
theorem reservedTermsAreDiscarded : Obligations.ReservedTermsAreDiscarded := by
  intro s i hi
  exact ⟨exec_not_wellFormed s hi, by rw [decode_encode, hi]; rfl⟩

/-- Settles O28: DBPROC and TICK end in one `emit`, and no other command writes the packets. -/
theorem onePacketPerProcessingCommand : Obligations.OnePacketPerProcessingCommand := by
  intro i s t h
  split
  next hop =>
    cases i with
    | dbproc n inA inB modA modB =>
      obtain ⟨-, -, rfl⟩ := execDbproc_next.1 h
      exact ⟨_, rfl⟩
    | tick n xA xB =>
      obtain ⟨-, -, rfl⟩ := execTick_next.1 h
      exact ⟨_, rfl⟩
    | _ => simp [opcodeOf] at hop
  next hop =>
    obtain ⟨-, -, -, -, -, -, -, -, -, -, -, -, -, -, -, -, -, -, hout⟩ := writeSets i s t h
    exact hout hop

/-! The channel count. -/

section ChannelCount
variable {b : Dbe} {n m : Nat} (h : processedNodes b n = processedNodes b m)
include h

theorem isProcessed_congr (x : Node) : isProcessed b n x = isProcessed b m x := by
  rw [isProcessed, isProcessed, h]

theorem wordsExist_congr (p : Params) : wordsExist p b n = wordsExist p b m := by
  simp only [wordsExist, isProcessed_congr h]

theorem dbTurn_congr (q : Nat) (x : Node) (v mod : F32) :
    dbTurn q b n x v mod = dbTurn q b m x v mod := by
  simp only [dbTurn, isProcessed_congr h]

/-- Node A's turn keeps `alloc`, so both turns process the same nodes for `n` as for `m`. -/
theorem dbProcess_congr (q : Nat) (ins mods : Pair F32) :
    dbProcess q n ins mods b = dbProcess q m ins mods b := by
  have hb : processedNodes (dbTurn q b m .a ins.a mods.a).2 n =
      processedNodes (dbTurn q b m .a ins.a mods.a).2 m := by
    simpa only [processedNodes, dbTurn_alloc] using h
  simp only [dbProcess, dbTurn_congr h, dbTurn_congr hb]

end ChannelCount

/-- Settles O30: DBPROC and TICK use the channel count only for which nodes are processed. -/
theorem channelCountIsClamped : Obligations.ChannelCountIsClamped := by
  intro n s hn
  have h : processedNodes s.db (readU8 n) = processedNodes s.db (readU8 s.db.alloc) :=
    (Nat.min_eq_right hn).trans (Nat.min_self _).symm
  constructor
  · intro a b c d
    simp only [exec, execDbproc, wordsExist_congr h, dbProcess_congr h]
  · intro xA xB
    simp only [exec, execTick, wordsExist_congr h, dbProcess_congr h]

end Sys2Proof.Machine
end

section
/-! SUPPORT. The Delay Buffer Engine's own commands DBPREP, DBCLR, DBSETD, DBPROC and its read
(40_delay_buffer.md R81 to R93), a skipped node in both processing commands (R90, R133), and the
silence after a CLEAR (42_feedback_network.md R125). -/

namespace Sys2Proof.Machine

/-! DBPREP, DBCLR, DBSETD. -/

/-- Settles O12: the clamped length and channel count fit their registers, so the zero-fill is up to
them. -/
theorem dbprepResult : Obligations.DbprepResult := by
  rintro n m s ⟨hmin, hmax, -, -⟩
  have hlen := dbPrepare_len_toNat s.params m.toNat n.toNat s.db hmin hmax
  have halloc := dbPrepare_alloc_toNat s.params m.toNat n.toNat s.db
  refine ⟨_, execDbprep_next.2 rfl, rfl, rfl, hlen, halloc, rfl, rfl, fun c i => ?_⟩
  rw [hlen, halloc]
  exact memRead_dbPrepare ..

/-- Settles O13: the guard, and the zero-fill of the allocated banks. -/
theorem dbclrResult : Obligations.DbclrResult := by
  intro s
  exact ⟨fun hr => needDb_unready hr _,
    fun hr => ⟨_, execDbclr_next.2 ⟨hr, rfl⟩, rfl, memRead_dbClear s.db⟩⟩

/-- Settles O14: the offsets depend on `L` and the operands only, so a second DBSETD writes them
again. -/
theorem dbsetdResult : Obligations.DbsetdResult := by
  intro offA offB s
  refine ⟨fun hr => needDb_unready hr _, fun hr hl => ⟨_, execDbsetd_next.2 ⟨hr, rfl⟩, rfl, ?_⟩⟩
  exact ⟨delayOffset_toNat _ _ hl, delayOffset_toNat _ _ hl, execDbsetd_next.2 ⟨hr, rfl⟩⟩

/-! The read, and DBPROC. -/

/-- Settles O15: the read base and the two indexes of the model's read are the rule's. -/
theorem dbReadFormula : Obligations.DbReadFormula := by
  intro q b x m hl
  have h0 : (readIndex b x (modInt m) 0 : Int) =
      ((readBase b x : Int) - modInt m) % b.len.toNat := by
    rw [readIndex, modLen_cast _ hl, Nat.cast_zero, Int.sub_zero]
  exact ⟨readBase b x, _, readIndex b x (modInt m) 1, modLen_cast _ hl, h0, modLen_cast _ hl, rfl⟩

/-- Settles O16: the two lanes, the cursors and the stores of `DB.process`, and its frame. -/
theorem dbprocResult : Obligations.DbprocResult := by
  intro n inA inB modA modB s
  refine ⟨fun hr => needDb_unready hr _, fun hr hregs hwf => ?_⟩
  refine ⟨_, execDbproc_next.2 ⟨hr, wordsExist_of_regsOk hregs _, rfl⟩, ?_, ?_, ?_, ?_⟩
  · rw [emit_db, spendFree_db, ← dbProcess_frame]
    rfl
  · have hlane := dbProcess_getD s n ⟨inA, inB⟩ ⟨modA, modB⟩
    simp only [dbprocLane, isProcessed_iff] at hlane
    exact congrArg₂ (fun a b : F32 => s.out ++ [a ++ b]) (hlane .a) (hlane .b)
  · exact dbProcess_w_toNat _ _ _ _ hregs
  · intro x i
    simp only [emit_db, spendFree_db, memRead_dbProcess _ _ _ _ _ hwf, isProcessed_iff]

/-! A skipped node. -/

/-- The feedback state of a node after a TICK is its read of the engine before the command, or the
kept one (R133). -/
theorem tickFb_get (n : BitVec 8) (xA xB : F32) (s : State) (x : Node) :
    (tickFb n xA xB s).get x =
      if isProcessed s.db n.toNat x
      then dbRead (s.free + 30 + 5 * x.index) s.db x ((modulation s).get x)
      else s.net.fb.get x := by
  rw [tickFb, dbProcess_out]
  cases x <;> simp only [Pair.get_a, Pair.get_b] <;> split <;> rfl

/-- Settles O29: `DB.process` writes no cursor and no bank of a skipped node. -/
theorem skippedNodeIsUntouched : Obligations.SkippedNodeIsUntouched := by
  intro n s t x hx
  have hskip : ¬ isProcessed s.db n.toNat x = true := by
    rw [isProcessed_iff]
    omega
  have hbuf (q : Nat) (ins mods : Pair F32) :
      (dbProcess q n.toNat ins mods s.db).2.buf.get x = s.db.buf.get x :=
    (dbProcess_buf ..).trans (if_neg hskip)
  have hw (q : Nat) (ins mods : Pair F32) :
      (dbProcess q n.toNat ins mods s.db).2.w.get x = s.db.w.get x :=
    (dbProcess_w ..).trans (if_neg hskip)
  constructor
  · intro a b c d h
    obtain ⟨p, hp, hlane⟩ := execDbproc_packet h
    obtain ⟨-, -, rfl⟩ := execDbproc_next.1 h
    exact ⟨hbuf .., hw .., p, hp, (hlane x).trans (if_neg hskip)⟩
  · intro xA xB h
    obtain ⟨-, -, rfl⟩ := execTick_next.1 h
    have hfb := (tickFb_get n xA xB s x).trans (if_neg hskip)
    exact ⟨hbuf .., hw .., hfb, _, rfl, (lane_packet _ _ x).trans hfb⟩

/-! The interpolation at the weights of R93. -/

/-- Settles O44, one lemma a clause. -/
theorem zeroWeightInterpolation : Obligations.ZeroWeightInterpolation := by
  intro q s0 s1
  exact ⟨interpolate_zero_weight_of_nonzero q, interpolate_zero_weight_of_zero q,
    interpolate_zero_weight_nan q⟩

/-- Settles O45: the complement of the weight and both products are rounded, and the sum is one unit
in the last place above the two samples. -/
theorem interpolationCanLeaveTheInterval : Obligations.InterpolationCanLeaveTheInterval := by
  intro q
  have hcompl : fsub q f1 0x3F49E9C6#32 = 0x3E5858E8#32 := by
    rw [fsub_finite q (by decide) (by decide)]
    decide +kernel
  have hmul0 : fmul (q + 1) 0x40D19FE9#32 0x3E5858E8#32 = 0x3FB127BA#32 := by
    rw [fmul_finite _ (by decide) (by decide)]
    decide +kernel
  have hmul1 : fmul (q + 2) 0x40D19FE9#32 0x3F49E9C6#32 = 0x40A555FB#32 := by
    rw [fmul_finite _ (by decide) (by decide)]
    decide +kernel
  rw [interpolate, hcompl, hmul0, hmul1, fadd_finite _ (by decide) (by decide)]
  decide +kernel

/-! A silent line. -/

/-- The fractional part of the modulation is in `[0, 1]`, whatever the modulation is (R89). -/
theorem modFrac_range (q : Nat) (m : F32) :
    isFinite (modFrac q m) = true ∧ 0 ≤ fval (modFrac q m) ∧ fval (modFrac q m) ≤ 2 ^ 149 := by
  obtain hf | ⟨hfin, hf⟩ : modFrac q m = f0 ∨
      isFinite (modFrac q m) = true ∧ fval (modFrac q m) = fval m % 2 ^ 149 := by
    by_cases h0 : fge m f0 = true
    · by_cases h : flt m f2p23 = true
      · obtain ⟨hfin, hf, -⟩ := modFrac_exact q h0 h
        exact .inr ⟨hfin, hf⟩
      · exact .inl (by rw [modFrac, modClamp_of_fge h0, if_neg h])
    · exact .inl (modFrac_of_clamp_zero q (if_neg h0))
  · rw [hf]
    decide +kernel
  · rw [hf]
    exact ⟨hfin, by omega, by omega⟩

/-- The complement to 1.0 of a value in `[0, 1]` is finite, and is +0.0 or positive. -/
theorem fsub_one_sign (q : Nat) {f : F32} (hf : isFinite f = true) (h0 : 0 ≤ fval f)
    (h1 : fval f ≤ 2 ^ 149) : isFinite (fsub q f1 f) = true ∧ fsign (fsub q f1 f) = false := by
  have hone : fval f1 = 2 ^ 149 := by decide +kernel
  have hzero : fval f0 = 0 := rfl
  have hneg := fval_fneg f
  have hf' : isFinite (fneg f) = true := by rwa [isFinite_fneg]
  constructor
  · exact isFinite_of_fle (le_fadd q (by decide) hf' (by decide) (by omega))
      (fadd_le q (by decide) hf' (by decide) (by omega)) (by decide : isFinite f1 = true)
  · rw [fsub_finite q (by decide) hf, ofUnits_eq_fpack, fsign_fpack _ (roundMag_lt _ _), hone]
    split
    · rfl
    · exact decide_eq_false (by omega)

theorem fmul_comm (q : Nat) (a b : F32) : fmul q a b = fmul q b a := by
  simp only [fmul, or_comm (a := isNaN a = true), or_comm (a := isInf a = true),
    or_comm (a := isZero a = true), Nat.mul_comm (unitsOf (fmag a)), bne_comm (a := fsign a)]

/-- Two samples of +0.0 interpolate to +0.0: the first product is +0.0, and adding a zero of either
sign keeps it. -/
theorem interpolate_silent (q : Nat) {f : F32} (hf : isFinite f = true) (h0 : 0 ≤ fval f)
    (h1 : fval f ≤ 2 ^ 149) : interpolate q f0 f0 f = f0 := by
  obtain ⟨hcfin, hcsign⟩ := fsub_one_sign q hf h0 h1
  rw [interpolate, fmul_comm, fmul_posZero _ hcfin, hcsign, fmul_comm, fmul_posZero _ hf]
  cases fsign f <;> (rw [fadd_finite _ (by decide) (by decide)]; decide)

/-- A read of a silent line gives +0.0 at every modulation (R84, R87). -/
theorem dbRead_silent (q : Nat) {p : Params} {b : Dbe} {x : Node} (m : F32) (h : DbeRegsOk p b)
    (hc : ContentLaw b x []) : dbRead q b x m = f0 := by
  obtain ⟨hfin, h0, h1⟩ := modFrac_range q m
  rw [delayedReadLaw q p b x m [] h hc]
  exact interpolate_silent (q + 1) hfin h0 h1

/-- Settles O42: a processed node reads its cleared line, and a skipped one keeps the cleared
feedback state. -/
theorem tickAfterClearIsSilent : Obligations.TickAfterClearIsSilent := by
  intro n xA xB s t u hs hclear htick
  have ht := exec_keeps_inv _ s t hs hclear
  obtain ⟨hready, -, rfl⟩ := execTick_next.1 htick
  have hregs := (ht.dbeOk (ht.dbReady hready)).2
  obtain ⟨-, ht'⟩ := execClear_next.1 hclear
  have hfb (x : Node) : (tickFb n xA xB t).get x = f0 := by
    rw [tickFb_get]
    split
    · next hp =>
      have hx := (isProcessed_iff t.db n.toNat x).1 hp
      exact dbRead_silent _ _ hregs (exec_silences hs hclear (by simp [opcodeOf]) (by omega))
    · rw [ht']
      cases x <;> rfl
  have ha : (tickFb n xA xB t).a = f0 := hfb .a
  have hb : (tickFb n xA xB t).b = f0 := hfb .b
  have hout : t.out = s.out := by rw [ht']
  rw [emit_out, spendFree_out, ha, hb, hout]

end Sys2Proof.Machine
end

section
/-! SUPPORT. The LFO engine (41_lfo_engine.md): the contract of `SinFn` (R102), the range and the listed
values of the three waveforms (R101 to R105), the phase advance (R106), the phase increment (R108), and
the commands SETRATE and SETTYPE (R109, R111). -/

namespace Sys2Proof.Machine

/-! Values between `-c` and `c`. -/

theorem abs_fkey (a : F32) : |fkey a| = fmag a := by
  unfold fkey
  split <;> simp

theorem fkey_fneg (a : F32) : fkey (fneg a) = -fkey a := by
  unfold fkey
  cases h : fsign a <;> simp [h]

theorem fmag_le_of_between {a c : F32} (h0 : fle (fneg c) a = true) (h1 : fle a c = true) :
    fmag a ≤ fmag c := by
  obtain ⟨-, -, h0⟩ := (fle_iff _ _).1 h0
  obtain ⟨-, -, h1⟩ := (fle_iff _ _).1 h1
  rw [fkey_fneg] at h0
  have habs : |fkey a| ≤ |fkey c| := (abs_le.2 ⟨h0, h1⟩).trans (le_abs_self _)
  rw [abs_fkey, abs_fkey] at habs
  exact_mod_cast habs

theorem isFinite_of_fmag_le {a c : F32} (h : fmag a ≤ fmag c) (hc : isFinite c = true) :
    isFinite a = true :=
  decide_eq_true (h.trans_lt (isFinite_fmag hc))

theorem abs_fval_le {a c : F32} (h : fmag a ≤ fmag c) (hc : isNaN c = false) :
    |fval a| ≤ unitsOf (fmag c) := by
  rw [fval_abs]
  exact_mod_cast unitsOf_mono h (fmag_le_infMag hc)

/-- A product of magnitude at most `c` rounds to a magnitude at most `c`, whatever the signs are. -/
theorem fmag_fmul_le (q : Nat) {a b c : F32} (ha : isFinite a = true) (hb : isFinite b = true)
    (hc : isNaN c = false)
    (h : unitsOf (fmag a) * unitsOf (fmag b) ≤ unitsOf (fmag c) * 2 ^ 149) :
    fmag (fmul q a b) ≤ fmag c := by
  rw [fmul_finite q ha hb, fmag_fpack _ (roundMag_lt _ _)]
  exact roundMag_le (Nat.two_pow_pos 149) (fmag_le_infMag hc) h

/-- A quotient of a value by one that is at least as large, neither negative, is in `[0, 1]`. -/
theorem fdiv_unit_range (q : Nat) {a b : F32} (ha : fge a f0 = true) (hb : isFinite b = true)
    (hb0 : isZero b = false) (hbs : fsign b = false) (hle : fmag a ≤ fmag b) :
    fge (fdiv q a b) f0 = true ∧ fle (fdiv q a b) f1 = true := by
  have hs : fsign a = fsign b ∨ fmag a = 0 := by
    rw [hbs]
    exact (Bool.eq_false_or_eq_true (fsign a)).symm.imp_right (fge_zero_iff.1 ha).2
  refine fdiv_range q (isFinite_of_fmag_le hle hb) hb hb0 hs (by decide) ?_
  rw [unitsOf_one, Nat.mul_comm]
  exact Nat.mul_le_mul_left _ (unitsOf_mono hle (isFinite_fmag hb).le)

/-! `SinFn`. -/

theorem fmag_sinFn_le (k : SinKind) {a : F32} (ha : isFinite a = true) :
    fmag (sinFn k a) ≤ fmag f1 := by
  obtain ⟨h0, h1⟩ := sinFn_range k ha
  exact fmag_le_of_between (c := f1) h0 h1

theorem isFinite_sinFn (k : SinKind) {a : F32} (ha : isFinite a = true) :
    isFinite (sinFn k a) = true :=
  isFinite_of_fmag_le (fmag_sinFn_le k ha) (by decide)

theorem sinFn_zero (k : SinKind) : sinFn k f0 = f0 := by
  cases k with
  | correctlyRounded => decide +kernel
  | anyConforming => rfl

theorem isNaN_or_quietBits (a : F32) : isNaN (a ||| 0x7FC00000#32) = true := by
  have h : 0x7FC00000 ≤ fmag (a ||| 0x7FC00000#32) := by
    rw [fmag, BitVec.toNat_or, Nat.or_mod_two_pow]
    exact Nat.right_le_or
  exact decide_eq_true (by unfold infMag; omega)

theorem isNaN_sinFn (k : SinKind) {a : F32} (ha : isFinite a = false) :
    isNaN (sinFn k a) = true := by
  unfold sinFn
  rw [if_neg (by simp [ha])]
  split
  · assumption
  · exact isNaN_or_quietBits _

/-- Settles O46: both instances are in `[-1, 1]` at a finite argument, and so finite. -/
theorem sinFnContract : Obligations.SinFnContract := by
  refine fun k => ⟨fun a ha => ?_, sinFn_zero k, fun a => isNaN_sinFn k⟩
  exact ⟨isFinite_sinFn k ha, sinFn_range k ha⟩

/-! The waveforms. -/

/-- Settles O47: the operations of the model's three arms. -/
theorem waveformFormulas : Obligations.WaveformFormulas := fun _ _ _ => ⟨rfl, rfl, rfl⟩

/-- The sine's product is in `[-0.5, 0.5]`. -/
theorem fmag_half_mul_sinFn_le (k : SinKind) (q : Nat) {p : F32} (hp : isFinite p = true) :
    fmag (fmul q fHalf (sinFn k p)) ≤ fmag fHalf := by
  have hunits := unitsOf_mono (fmag_sinFn_le k hp) (by decide)
  rw [unitsOf_one] at hunits
  exact fmag_fmul_le q (by decide) (isFinite_sinFn k hp) (by decide) (Nat.mul_le_mul_left _ hunits)

theorem sine_range (k : SinKind) (q : Nat) {p : F32} (hp : isFinite p = true) :
    fge (lfoValue k q .sine p) f0 = true ∧ fle (lfoValue k q .sine p) f1 = true := by
  have hle := fmag_half_mul_sinFn_le k q hp
  have hfin := isFinite_of_fmag_le hle (by decide)
  obtain ⟨hlo, hhi⟩ := abs_le.1 (abs_fval_le hle (by decide))
  have hhalf : fval fHalf = unitsOf (fmag fHalf) := by decide
  have hone : fval f1 = 2 * unitsOf (fmag fHalf) := by decide +kernel
  have hzero : fval f0 = 0 := rfl
  exact ⟨le_fadd _ (by decide) hfin (by decide) (by omega),
    fadd_le _ (by decide) hfin (by decide) (by omega)⟩

/-- An angle's distance to PI is at most PI. -/
theorem fmag_sub_pi_le (q : Nat) {p : F32} (h0 : fge p f0 = true) (h1 : flt p twoPi = true) :
    fmag (fsub q p fpi) ≤ fmag fpi := by
  obtain ⟨hfin, hlo, hhi⟩ := fval_angle h0 h1
  have hpi : isFinite (fneg fpi) = true := by decide
  have hneg := fval_fneg fpi
  have htwo : fval belowTwoPi ≤ fval fpi + fval fpi := by decide +kernel
  exact fmag_le_of_between (le_fadd q hfin hpi (by decide) (by omega))
    (fadd_le q hfin hpi (by decide) (by omega))

theorem fge_zero_fabs {a : F32} (h : isNaN a = false) : fge (fabs a) f0 = true := by
  simp [fge_zero_iff, h]

theorem triangle_range (k : SinKind) (q : Nat) {p : F32} (h0 : fge p f0 = true)
    (h1 : flt p twoPi = true) :
    fge (lfoValue k q .triangle p) f0 = true ∧ fle (lfoValue k q .triangle p) f1 = true := by
  have hle := fmag_sub_pi_le q h0 h1
  have hn := ((isFinite_iff _).1 (isFinite_of_fmag_le hle (by decide))).1
  exact fdiv_unit_range _ (fge_zero_fabs hn) (by decide) (by decide) (by decide)
    (by rwa [fmag_fabs])

theorem sawtooth_range (k : SinKind) (q : Nat) {p : F32} (h0 : fge p f0 = true)
    (h1 : flt p twoPi = true) :
    fge (lfoValue k q .sawtooth p) f0 = true ∧ fle (lfoValue k q .sawtooth p) f1 = true :=
  fdiv_unit_range q h0 (by decide) (by decide) (by decide)
    ((fle_iff_fmag_le h0 (by decide)).1 (fle_of_flt h1))

/-- Settles O48: half plus at most half in magnitude for the sine, a quotient by a bound of the
dividend for the other two. -/
theorem lfoUnitRange : Obligations.LfoUnitRange := by
  intro k q typ p h0 h1
  cases typ with
  | sine => exact sine_range k q (fval_angle h0 h1).1
  | triangle => exact triangle_range k q h0 h1
  | sawtooth => exact sawtooth_range k q h0 h1

/-- No operation of a waveform gives a NaN at an angle, so the value depends on no free value. -/
theorem lfoValue_free (k : SinKind) (q q' : Nat) (typ : Waveform) {p : F32} (h0 : fge p f0 = true)
    (h1 : flt p twoPi = true) : lfoValue k q typ p = lfoValue k q' typ p := by
  have hp := (fval_angle h0 h1).1
  cases typ with
  | sine =>
    have hsin := isFinite_sinFn k hp
    have hhalf : isFinite fHalf = true := by decide
    have hmul : fmul q fHalf (sinFn k p) = fmul q' fHalf (sinFn k p) := by
      rw [fmul_finite q hhalf hsin, fmul_finite q' hhalf hsin]
    have hprod := isFinite_of_fmag_le (fmag_half_mul_sinFn_le k q' hp) hhalf
    rw [lfoValue, lfoValue, hmul, fadd_finite _ hhalf hprod, fadd_finite _ hhalf hprod]
  | triangle =>
    have hpi : isFinite fpi = true := by decide
    have hsub : fsub q p fpi = fsub q' p fpi := by
      rw [fsub_finite q hp hpi, fsub_finite q' hp hpi]
    have habs : isFinite (fabs (fsub q' p fpi)) = true :=
      isFinite_of_fmag_le ((fmag_fabs _).trans_le (fmag_sub_pi_le q' h0 h1)) hpi
    rw [lfoValue, lfoValue, hsub, fdiv_finite _ habs hpi (by decide),
      fdiv_finite _ habs hpi (by decide)]
  | sawtooth =>
    rw [lfoValue, lfoValue, fdiv_finite q hp (by decide) (by decide),
      fdiv_finite q' hp (by decide) (by decide)]

/-- Settles O49: the four phases are angles, so the values are those of the free values from 0 on, which
evaluate. -/
theorem waveformValues : Obligations.WaveformValues := by
  intro q
  have hfree (k : SinKind) (typ : Waveform) {p : F32} (h : fge p f0 = true ∧ flt p twoPi = true) :
      lfoValue k q typ p = lfoValue k 0 typ p := lfoValue_free k q 0 typ h.1 h.2
  have h0 : fge f0 f0 = true ∧ flt f0 twoPi = true := by decide
  have h1 : fge halfPi f0 = true ∧ flt halfPi twoPi = true := by decide
  have h2 : fge fpi f0 = true ∧ flt fpi twoPi = true := by decide
  have h3 : fge 0x4096CBE4#32 f0 = true ∧ flt 0x4096CBE4#32 twoPi = true := by decide
  simp only [hfree _ _ h0, hfree _ _ h1, hfree _ _ h2, hfree _ _ h3]
  refine ⟨by decide +kernel, fun k => ?_⟩
  cases k <;> decide +kernel

/-! The phase advance. -/

/-- Settles O50: an increment up to PI is an angle. -/
theorem phaseAdvanceKeepsRange : Obligations.PhaseAdvanceKeepsRange := by
  refine fun q ph inc => ⟨rfl, fun hph0 hph hinc0 hinc => ?_, fun h => advancePhase_nan q (.inr h)⟩
  exact advancePhase_range q hph0 hph hinc0 (flt_of_fle_of_flt hinc (by decide))

/-! The phase increment. -/

/-- From 2^24 units on, one exponent step down halves a value. -/
theorem unitsOf_exponent_step {m : Nat} (h : 2 ^ 24 ≤ m) :
    unitsOf m = 2 * unitsOf (m - 2 ^ 23) := by
  obtain ⟨e, he⟩ : ∃ e, m / 2 ^ 23 = e + 2 := ⟨m / 2 ^ 23 - 2, by omega⟩
  have he' : (m - 2 ^ 23) / 2 ^ 23 = e + 1 := by omega
  have hr : (m - 2 ^ 23) % 2 ^ 23 = m % 2 ^ 23 := by omega
  rw [unitsOf, unitsOf, he, he', hr, if_neg (by omega), if_neg (by omega)]
  simp only [Nat.add_sub_cancel, show e + 2 - 1 = e + 1 from rfl, pow_succ]
  ring

/-- So half of such a value is exact. -/
theorem roundMag_half {m : Nat} (h : 2 ^ 24 ≤ m) (hm : m ≤ infMag) :
    roundMag (unitsOf m * 2 ^ 148) (2 ^ 149) = m - 2 ^ 23 := by
  have hu : unitsOf m * 2 ^ 148 = unitsOf (m - 2 ^ 23) * 2 ^ 149 := by
    rw [unitsOf_exponent_step h]
    omega
  rw [hu, roundMag_unitsOf (by omega) (Nat.two_pow_pos 149)]

theorem unitsOf_half : unitsOf (fmag fHalf) = 2 ^ 148 := by decide

theorem fmul_half (q : Nat) {a : F32} (ha : isFinite a = true) (h : 2 ^ 24 ≤ fmag a) :
    fmul q a fHalf = fpack (fsign a) (fmag a - 2 ^ 23) := by
  rw [fmul_finite q ha (by decide), unitsOf_half, roundMag_half h (isFinite_fmag ha).le,
    show fsign fHalf = false by decide, Bool.bne_false]

/-- What `fs >= 2^-125` says. -/
theorem le_fmag_of_fge {fs : F32} (h : fge fs 0x01000000#32 = true) :
    fsign fs = false ∧ 2 ^ 24 ≤ fmag fs := by
  obtain ⟨-, -, hk⟩ := (fle_iff _ _).1 h
  rw [show fkey 0x01000000#32 = 2 ^ 24 by decide, fkey] at hk
  split at hk
  · omega
  · next hs => exact ⟨by simpa using hs, by omega⟩

theorem fsign_eq_fkey_neg {a : F32} (h : fmag a ≠ 0) : fsign a = decide (fkey a < 0) := by
  unfold fkey
  cases fsign a <;> simp
  omega

/-- Two values that are equal and not zero are the same word. -/
theorem eq_of_fkey_eq {a b : F32} (h : fkey a = fkey b) (hb : isZero b = false) : a = b := by
  have hb0 : fmag b ≠ 0 := by simpa [isZero] using hb
  have hm : (fmag a : Int) = fmag b := by rw [← abs_fkey, ← abs_fkey, h]
  have hm : fmag a = fmag b := by exact_mod_cast hm
  exact f32_ext (by rw [fsign_eq_fkey_neg (hm ▸ hb0), fsign_eq_fkey_neg hb0, h]) hm

/-- From half the sample rate on, that half itself included, the saturated rate is the half. -/
theorem saturatedRate_of_half_le {q : Nat} {rate fs : F32}
    (h : fge rate (fmul q fs fHalf) = true) (h0 : isZero (fmul q fs fHalf) = false) :
    saturatedRate q rate fs = fmul q fs fHalf := by
  unfold saturatedRate
  split
  · rfl
  · next hgt =>
    obtain ⟨hn, hn', hk⟩ := (fle_iff _ _).1 h
    rw [fgt, flt_iff] at hgt
    exact eq_of_fkey_eq (by simp only [hn, hn', true_and] at hgt; omega) h0

theorem isZero_of_le_fmag {a : F32} (h : 2 ^ 24 ≤ fmag a) : isZero a = false :=
  decide_eq_false (by omega)

/-- For a sample rate of at least 2^-125, whose half is exact, the quotient is at most one half. -/
theorem saturatedRate_div_le_half (q q' : Nat) {rate fs : F32} (hfs : isFinite fs = true)
    (hmag : 2 ^ 24 ≤ fmag fs) (hr : fge rate f0 = true) :
    fge (fdiv q (saturatedRate q' rate fs) fs) f0 = true ∧
    fle (fdiv q (saturatedRate q' rate fs) fs) fHalf = true := by
  have hinf := isFinite_fmag hfs
  obtain ⟨hle, hs⟩ := saturatedRate_le q' hr hfs
  rw [roundMag_half hmag hinf.le] at hle
  have hfin : isFinite (saturatedRate q' rate fs) = true := isFinite_of_fmag_le (by omega) hfs
  have hunits := unitsOf_mono hle (by omega)
  have hstep := unitsOf_exponent_step hmag
  exact fdiv_range q hfin hfs (isZero_of_le_fmag hmag) hs (by decide) (by rw [unitsOf_half]; omega)

/-- TWO_PI times at most one half is at most PI. -/
theorem twoPi_mul_range (q : Nat) {a : F32} (h0 : fge a f0 = true) (h1 : fle a fHalf = true) :
    fge (fmul q twoPi a) f0 = true ∧ fle (fmul q twoPi a) fpi = true := by
  have hle := (fle_iff_fmag_le h0 (by decide)).1 h1
  have hunits := unitsOf_mono hle (by decide)
  have hprod : unitsOf (fmag twoPi) * unitsOf (fmag fHalf) ≤ unitsOf (fmag fpi) * 2 ^ 149 := by
    decide +kernel
  exact fmul_range q (by decide) (isFinite_of_fle h0 h1 (by decide)) (by decide) h0 (by decide)
    ((Nat.mul_le_mul_left _ hunits).trans hprod)

theorem phaseInc_range (q : Nat) {rate fs : F32} (hfs : isFinite fs = true)
    (hmin : fge fs 0x01000000#32 = true) (hr : fge rate f0 = true) :
    fge (phaseInc q rate fs) f0 = true ∧ fle (phaseInc q rate fs) fpi = true := by
  obtain ⟨h0, h1⟩ := saturatedRate_div_le_half (q + 1) q hfs (le_fmag_of_fge hmin).2 hr
  exact twoPi_mul_range _ h0 h1

/-- A value of at least 2^-125 divides its half exactly. -/
theorem fdiv_half (q q' : Nat) {fs : F32} (hfs : isFinite fs = true) (hmag : 2 ^ 24 ≤ fmag fs) :
    fdiv q (fmul q' fs fHalf) fs = fHalf := by
  have hinf := isFinite_fmag hfs
  have hlt : fmag fs - 2 ^ 23 < 2 ^ 31 := by have := infMag_lt; omega
  have hz := isZero_of_le_fmag hmag
  have hfin : isFinite (fpack (fsign fs) (fmag fs - 2 ^ 23)) = true :=
    isFinite_of_fmag_le (by rw [fmag_fpack _ hlt]; omega) hfs
  have hstep : unitsOf (fmag fs - 2 ^ 23) * 2 ^ 149 = unitsOf (fmag fHalf) * unitsOf (fmag fs) := by
    rw [unitsOf_exponent_step hmag, unitsOf_half]
    omega
  rw [fmul_half q' hfs hmag, fdiv_finite q hfin hfs hz, fsign_fpack _ hlt, fmag_fpack _ hlt, hstep,
    roundMag_unitsOf (by decide) (unitsOf_pos hz), bne_self_eq_false]
  decide

/-- From half the sample rate on the increment is PI exactly (R108). -/
theorem phaseInc_of_half_le (q : Nat) {rate fs : F32} (hfs : isFinite fs = true)
    (hmin : fge fs 0x01000000#32 = true) (h : fge rate (fmul q fs fHalf) = true) :
    phaseInc q rate fs = fpi := by
  obtain ⟨-, hmag⟩ := le_fmag_of_fge hmin
  have hlt : fmag fs - 2 ^ 23 < 2 ^ 31 := by have := fmag_lt fs; omega
  have hz : isZero (fmul q fs fHalf) = false := by
    rw [fmul_half q hfs hmag]
    exact decide_eq_false (by rw [fmag_fpack _ hlt]; omega)
  rw [phaseInc_eq, saturatedRate_of_half_le h hz, fdiv_half _ _ hfs hmag,
    fmul_half _ (by decide) (by decide)]
  decide

/-- Settles O51: from 2^-125 on, half the sample rate is exact. -/
theorem phaseIncSaturates : Obligations.PhaseIncSaturates := fun q _ _ hfs hmin =>
  ⟨phaseInc_range q hfs hmin, phaseInc_of_half_le q hfs hmin⟩

/-- Refutes O52: half of a sample rate of 3 units rounds up to 2 units, the quotient to 2/3, and the
increment of a rate of 1.0 is about 4.19. -/
theorem not_phaseIncAtMostPiForEveryPositiveFs :
    ¬ Obligations.PhaseIncAtMostPiForEveryPositiveFs := by
  intro h
  obtain ⟨-, hle⟩ := h 0 f1 0x00000003#32 (by decide) (by decide) (by decide)
  have hinc : phaseInc 0 f1 0x00000003#32 = 0x40860A92#32 := by decide +kernel
  rw [hinc] at hle
  exact absurd hle (by decide)

/-! SETRATE and SETTYPE. -/

/-- Settles O24: the guard, and the increment from the saturated operand. -/
theorem setrateResult : Obligations.SetrateResult := by
  intro hz s
  exact ⟨fun hr => needFn_unready hr _, fun hr => ⟨_, execSetrate_next.2 ⟨hr, rfl⟩, rfl⟩⟩

/-- Settles O25: each legal code names a waveform. -/
theorem settypeResult : Obligations.SettypeResult := by
  intro n s
  have hnext {v : Waveform} (hr : s.net.ready = true) (hv : waveOf n = some v) :
      exec (.settype n) s = .next { s with lfo := { s.lfo with typ := v } } :=
    execSettype_next.2 (.inr ⟨v, hv, hr, rfl⟩)
  refine ⟨fun hr hn => ?_, fun hr hn => hnext hr (by rw [hn]; rfl),
    fun hr hn => hnext hr (by rw [hn]; rfl), fun hr hn => hnext hr (by rw [hn]; rfl)⟩
  rcases hn with rfl | rfl | rfl <;> exact needFn_unready hr _

end Sys2Proof.Machine
end

section
/-! SUPPORT. A run of command words is that many steps of the core (42_feedback_network.md R134,
60_exceptions.md R180, 70_reset_and_hazards.md R187). -/

namespace Sys2Proof.Machine

/-- Settles O8, by induction on the words: the first step sees none of the words behind its own, so
those of the run may stand in front of the port all along. -/
theorem runIsTheStepsOfItsWords : Obligations.RunIsTheStepsOfItsWords := by
  intro ws
  induction ws with
  | nil => exact fun s => rfl
  | cons w ws ih =>
    intro s
    have hcore : core.step { s with port := w :: (ws ++ s.port) } =
        withPort (ws ++ s.port) (step { s with port := w :: s.port }) := step_port ..
    rw [runWords, List.length_cons, List.cons_append]
    simp only [Host.Core.run, hcore]
    cases h : step { s with port := w :: s.port } with
    | next t =>
      have hrest := ih t
      rw [step_next_port h] at hrest
      exact hrest
    | fault r => rfl
    | refused r => rfl

end Sys2Proof.Machine
end

section
/-! SUPPORT. The feedback network's commands PREPARE, CLEAR, TICK and the setters of the offset, the
depth and the gains (42_feedback_network.md R121 to R138), and the two conversions from
milliseconds (R122, R123). -/

namespace Sys2Proof.Machine

/-! PREPARE and CLEAR. -/

/-- The delay offset of a base delay (R121): the clamp of R85 between numbers that are not negative. -/
theorem delayOffset_natCast_toNat {len : Word} (base : Nat) (h : 2 ≤ len.toNat) :
    (delayOffset len base).toNat = min (max base 1) (len.toNat - 1) := by
  have := delayOffset_toNat len base h
  unfold clampI at this
  omega

/-- Settles O17: the length is at least 2, so both offsets are the clamped base delay. -/
theorem prepareResult : Obligations.PrepareResult := by
  rintro n fs ms s ⟨hmin, hmax, -, -⟩
  have hlen := dbPrepare_len_toNat s.params (ms2Len s.free fs ms) n.toNat s.db hmin hmax
  have halloc := dbPrepare_alloc_toNat s.params (ms2Len s.free fs ms) n.toNat s.db
  have hlen2 : 2 ≤ (dbPrepare s.params (ms2Len s.free fs ms) n.toNat s.db).len.toNat := by
    rw [hlen, clampN]
    omega
  have hoff := delayOffset_natCast_toNat s.params.baseDelay hlen2
  refine ⟨_, execPrepare_next.2 rfl, rfl, rfl, rfl, rfl, hlen, halloc, rfl, fun x => ?_,
    fun c i => ?_, rfl, rfl, rfl, rfl, rfl, rfl⟩
  · cases x <;> exact hoff
  · simp only [spendFree_db, dbSetDelay_len, dbSetDelay_alloc, hlen, halloc]
    exact memRead_dbPrepare ..

/-- Settles O19: the guard, and the zero-fill of the allocated banks. -/
theorem clearResult : Obligations.ClearResult := by
  intro s
  exact ⟨fun hr => needFn_unready hr _,
    fun hr => ⟨_, execClear_next.2 ⟨hr, rfl⟩, rfl, memRead_dbClear s.db⟩⟩

/-! The conversions from milliseconds. -/

/-- No operation of a conversion that stays finite gives a NaN, so it depends on no free value. -/
theorem ms2Smp_free (q q' : Nat) {fs ms : F32} (hfs : isFinite fs = true) (hms : isFinite ms = true)
    (hmul : isFinite (fmul q' ms fs) = true) : ms2Smp q fs ms = ms2Smp q' fs ms := by
  have hprod : fmul q ms fs = fmul q' ms fs := by rw [fmul_finite q hms hfs, fmul_finite q' hms hfs]
  have h1000 : isFinite f1000 = true ∧ isZero f1000 = false := by decide
  rw [ms2Smp, ms2Smp, hprod, fdiv_finite _ hmul h1000.1 h1000.2, fdiv_finite _ hmul h1000.1 h1000.2]

theorem ms2Len_congr {q q' : Nat} {fs ms : F32} (h : ms2Smp q fs ms = ms2Smp q' fs ms) :
    ms2Len q fs ms = ms2Len q' fs ms := by rw [ms2Len, ms2Len, h]

theorem floorSatU32_nan {v : F32} (h : isNaN v = true) : floorSatU32 v = 0 := if_pos (.inl h)

/-- A NaN duration converts to the length 1 (R123). -/
theorem ms2Len_nan (q : Nat) (fs : F32) {ms : F32} (h : isNaN ms = true) : ms2Len q fs ms = 1 := by
  have hsmp : isNaN (ms2Smp q fs ms) = true := by
    rw [ms2Smp, fmul_nan q (.inl h), fdiv_nan _ (.inl (isNaN_freshNaN q)), isNaN_freshNaN]
  rw [ms2Len, floorSatU32_nan hsmp]
  rfl

/-- Settles O18: the listed conversions but the one of NaN stay finite, so their values are those of the
free values from 0 on, which evaluate. -/
theorem millisecondConversions : Obligations.MillisecondConversions := by
  intro q
  have hsmp {fs ms : F32} (h : isFinite fs = true ∧ isFinite ms = true ∧
      isFinite (fmul 0 ms fs) = true) : ms2Smp q fs ms = ms2Smp 0 fs ms :=
    ms2Smp_free q 0 h.1 h.2.1 h.2.2
  have hlen {fs ms : F32} (h : isFinite fs = true ∧ isFinite ms = true ∧
      isFinite (fmul 0 ms fs) = true) : ms2Len q fs ms = ms2Len 0 fs ms := ms2Len_congr (hsmp h)
  refine ⟨fun fs ms => ⟨rfl, rfl⟩, (hsmp ?_).trans ?_, (hsmp ?_).trans ?_, (hsmp ?_).trans ?_,
    (hlen ?_).trans ?_, (hlen ?_).trans ?_, (hlen ?_).trans ?_, ms2Len_nan q _ (by decide),
    (hlen ?_).trans ?_⟩
  all_goals decide +kernel

/-! TICK. -/

/-- Settles O20: the feedback state, the cursors and the stores of `DB.process` on the modulation and
the combined input, and its frame. -/
theorem tickResult : Obligations.TickResult := by
  intro n xA xB s
  refine ⟨fun hr => needFn_unready hr _, fun hr hregs hwf => ?_⟩
  have hfb := tickFb_get n xA xB s
  simp only [isProcessed_iff] at hfb
  refine ⟨_, execTick_next.2 ⟨hr, wordsExist_of_regsOk hregs _, rfl⟩, ?_, rfl, hfb .a, hfb .b, rfl,
    ?_, ?_⟩
  · rw [emit_db, spendFree_db, ← dbProcess_frame]
    rfl
  · exact dbProcess_w_toNat _ _ _ _ hregs
  · intro x i
    simp only [emit_db, spendFree_db, memRead_dbProcess _ _ _ _ _ hwf, isProcessed_iff]
    rfl

/-! The setters. -/

/-- Settles O21: the guard, and one target with its ramp unit, from the difference as it is. -/
theorem setofsResult : Obligations.SetofsResult := by
  intro f ms s
  exact ⟨fun hr => needFn_unready hr _, fun hr => ⟨_, execSetofs_next.2 ⟨hr, rfl⟩, rfl⟩⟩

/-- Settles O22: the guard, and one target with its ramp unit, from the saturated operand. -/
theorem setdepResult : Obligations.SetdepResult := by
  intro f ms s
  exact ⟨fun hr => needFn_unready hr _, fun hr => ⟨_, execSetdep_next.2 ⟨hr, rfl⟩, rfl⟩⟩

/-- Settles O23: the operands 0 and 1 name the two nodes. -/
theorem setgainResult : Obligations.SetgainResult := by
  intro n f g s
  have hnext (x : Node) (hr : s.net.ready = true) (hx : nodeOf n = some x) :
      exec (.setgain n f g) s =
        .next { s with net := setTarget (gainRamp x) (gainClamp g) f s.net } :=
    execSetgain_next.2 (.inr ⟨x, hx, hr, rfl⟩)
  refine ⟨fun hr hn => ?_, fun hr hn => hnext .a hr (by rw [hn]; rfl),
    fun hr hn => hnext .b hr (by rw [hn]; rfl)⟩
  rcases hn with rfl | rfl <;> exact needFn_unready hr _

end Sys2Proof.Machine
end

section
/-! SUPPORT. The ramp port (43_ramp_port.md R150 to R162): a unit's distance from its target, which
every `next` shortens, the interval a conforming ramp stays in, and the calls on a `RefRamp`. -/

namespace Sys2Proof.Machine

/-- A conforming ramp in its duration applies some value of the glide (R155). -/
theorem contractRampNext_glide (q : Nat) {r : ContractRamp} {k : Nat} (h : r.left = k + 1) :
    contractRampNext q r =
      { r with left := k, cur := glideValue (Config.free q) r.start r.tgt } := by
  simp only [contractRampNext]
  rw [h]

/-! A unit reaches its target and stays there. -/

/-- From its `n`-th `next` on the unit returns `v`, and at `n = 0` its value is `v` already (R155 (a),
R161). A `RefRamp` has a target to pick up or is on its glide, a conforming ramp is on its glide or
has ended it. -/
inductive AtTargetAfter (v : F32) : Nat → RampUnit → Prop
  | refPending {n : Nat} {r : RefRamp} (hdirty : r.dirty = true) (htgt : r.tgt = v)
      (hpos : 0 < r.len.toNat) (hlen : r.len.toNat ≤ n) : AtTargetAfter v n (.ref r)
  | refGlide {n : Nat} {r : RefRamp} (hdirty : r.dirty = false) (hact : r.act = v)
      (hleft : r.left.toNat ≤ n) (hcur : r.left = 0 → r.cur = v) : AtTargetAfter v n (.ref r)
  | contractGlide {n : Nat} {r : ContractRamp} (htgt : r.tgt = v) (hleft : r.left < n) :
      AtTargetAfter v n (.contract r)
  | contractOver {n : Nat} {r : ContractRamp} (htgt : r.tgt = v) (hleft : r.left = 0)
      (hcur : r.cur = v) : AtTargetAfter v n (.contract r)

theorem AtTargetAfter.value {v : F32} {u : RampUnit} (h : AtTargetAfter v 0 u) :
    rampValue u = v := by
  cases h with
  | refPending _ _ hpos hlen => omega
  | refGlide _ _ hleft hcur => exact hcur (BitVec.eq_of_toNat_eq (by simpa using hleft))
  | contractGlide _ hleft => omega
  | contractOver _ _ hcur => exact hcur

/-- A `next` brings the unit one call nearer, and leaves one at its target there. -/
theorem AtTargetAfter.next {v : F32} {n : Nat} {u : RampUnit} (q : Nat) (h : AtTargetAfter v n u) :
    AtTargetAfter v (n - 1) (rampNext q u) := by
  cases h with
  | @refPending r hdirty htgt hpos hlen =>
    obtain ⟨hd, hact, hleft, -, hcur⟩ := refRampNext_dirty q hdirty hpos
    refine .refGlide hd (hact.trans htgt) ?_ fun h0 => (hcur (hleft ▸ h0)).trans htgt
    rw [hleft]
    bv_omega
  | @refGlide r hdirty hact hleft hcur =>
    by_cases hover : r.left = 0
    · rw [rampNext_ref, refRampNext_settled q hdirty hover]
      exact .refGlide hdirty hact (by simp [hover]) hcur
    · rw [rampNext_ref, refRampNext_glide q hdirty (by bv_omega)]
      exact .refGlide hdirty hact (by bv_omega) fun h0 => (if_pos h0).trans hact
  | @contractGlide r htgt hleft =>
    cases hk : r.left with
    | zero =>
      rw [rampNext_contract, contractRampNext_over q hk]
      exact .contractOver htgt hk htgt
    | succ k =>
      rw [rampNext_contract, contractRampNext_glide q hk]
      exact .contractGlide htgt (show k < n - 1 by omega)
  | contractOver htgt hleft hcur =>
    rw [rampNext_contract, contractRampNext_over q hleft]
    exact .contractOver htgt hleft htgt

theorem AtTargetAfter.steps {v : F32} {n : Nat} {u : RampUnit} (q : Nat → Nat) (m : Nat)
    (h : AtTargetAfter v n u) : AtTargetAfter v (n - m) (rampSteps q m u) := by
  induction m with
  | zero => exact h
  | succ m ih => exact ih.next (q m)

/-- After enough `next` calls the unit returns `v`. -/
theorem AtTargetAfter.value_steps {v : F32} {n m : Nat} {u : RampUnit} (q : Nat → Nat)
    (h : AtTargetAfter v n u) (hm : n ≤ m) : rampValue (rampSteps q m u) = v := by
  have hsteps := h.steps q m
  rw [Nat.sub_eq_zero_of_le hm] at hsteps
  exact hsteps.value

/-- An unforced `setTarget` starts a glide (R152, R160). -/
theorem atTargetAfter_setTarget {u : RampUnit} (v : F32) (h : rampPrepared u = true) :
    AtTargetAfter v (glideBound u) (rampSetTarget v false u) := by
  cases u with
  | ref r => exact .refPending rfl rfl (of_decide_eq_true h) le_rfl
  | contract r => exact .contractGlide rfl (Nat.lt_succ_self _)

/-- A forced `setTarget` ends every glide (R152, R160). -/
theorem atTargetAfter_setTarget_force (v : F32) (u : RampUnit) :
    AtTargetAfter v 0 (rampSetTarget v true u) := by
  cases u with
  | ref r => exact .refGlide rfl rfl le_rfl fun _ => rfl
  | contract r => exact .contractOver rfl rfl rfl

/-- So does a `prepare` with `imm` (R151, R159). -/
theorem atTargetAfter_prepare_imm (p : Params) (q : Nat) (fs v : F32) (u : RampUnit) :
    AtTargetAfter v 0 (rampPrepare p q fs true v u) := by
  cases u with
  | ref r => exact .refGlide rfl rfl le_rfl fun _ => rfl
  | contract r => exact .contractOver rfl rfl rfl

/-- Settles O54: the glide's bound is the distance from the target that `setTarget` leaves. -/
theorem rampReachesItsTarget : Obligations.RampReachesItsTarget :=
  fun q _ v _ hprep hm => (atTargetAfter_setTarget v hprep).value_steps q hm

/-- Settles O55: both calls leave the unit at its target, where every `next` keeps it. -/
theorem forcedTargetAppliesAtOnce : Obligations.ForcedTargetAppliesAtOnce :=
  fun q u v m _ => ⟨(atTargetAfter_setTarget_force v u).value_steps q m.zero_le,
    fun p q' fs => (atTargetAfter_prepare_imm p q' fs v u).value_steps q m.zero_le⟩

/-! A conforming ramp stays in the interval of its glide. -/

theorem fle_total {a b : F32} (ha : isNaN a = false) (hb : isNaN b = false) :
    fle a b = true ∨ fle b a = true :=
  (le_total (fkey a) (fkey b)).imp (fun h => (fle_iff a b).2 ⟨ha, hb, h⟩)
    fun h => (fle_iff b a).2 ⟨hb, ha, h⟩

/-- `y` lies between `a` and `b`, both included. -/
def FBetween (a b y : F32) : Prop :=
  (fle a y = true ∧ fle y b = true) ∨ (fle b y = true ∧ fle y a = true)

theorem fBetween_left {a b : F32} (ha : isNaN a = false) (hb : isNaN b = false) :
    FBetween a b a :=
  (fle_total ha hb).imp (fun h => ⟨fle_refl ha, h⟩) fun h => ⟨h, fle_refl ha⟩

theorem fBetween_right {a b : F32} (ha : isNaN a = false) (hb : isNaN b = false) :
    FBetween a b b :=
  (fle_total ha hb).imp (fun h => ⟨h, fle_refl hb⟩) fun h => ⟨fle_refl hb, h⟩

/-- A conforming ramp on a glide from `a` to `v` whose value lies between the two (R155 (b)). -/
inductive OnGlide (a v : F32) : RampUnit → Prop
  | contract {r : ContractRamp} (hstart : r.start = a) (htgt : r.tgt = v)
      (hcur : FBetween a v r.cur) : OnGlide a v (.contract r)

theorem OnGlide.value {a v : F32} {u : RampUnit} (h : OnGlide a v u) :
    FBetween a v (rampValue u) := by
  cases h with
  | contract _ _ hcur => exact hcur

/-- What a `next` applies is the target or a value of the glide, and both lie in the interval. -/
theorem OnGlide.next {a v : F32} {u : RampUnit} (q : Nat) (ha : isNaN a = false)
    (hv : isNaN v = false) (h : OnGlide a v u) : OnGlide a v (rampNext q u) := by
  cases h with
  | @contract r hstart htgt hcur =>
    rw [rampNext_contract]
    cases hleft : r.left with
    | zero =>
      rw [contractRampNext_over q hleft]
      exact .contract hstart htgt (htgt ▸ fBetween_right ha (htgt ▸ hv))
    | succ k =>
      subst hstart htgt
      rw [contractRampNext_glide q hleft]
      exact .contract rfl rfl (glideValue_between _ _ _ ha hv (fle_total ha hv))

theorem OnGlide.steps {a v : F32} {u : RampUnit} (q : Nat → Nat) (m : Nat)
    (ha : isNaN a = false) (hv : isNaN v = false) (h : OnGlide a v u) :
    OnGlide a v (rampSteps q m u) := by
  induction m with
  | zero => exact h
  | succ m ih => exact ih.next (q m) ha hv

/-- The glide of an unforced `setTarget` starts at the value the unit has (R155 (b)). -/
theorem onGlide_setTarget {r : ContractRamp} {v : F32} (hcur : isNaN r.cur = false)
    (hv : isNaN v = false) : OnGlide r.cur v (rampSetTarget v false (.contract r)) :=
  .contract rfl rfl (fBetween_left hcur hv)

/-- Settles O56: `setTarget` puts the unit on the glide from its value, and no `next` takes it off. -/
theorem contractRampStaysBetween : Obligations.ContractRampStaysBetween :=
  fun q _ _ m hcur hv => ((onGlide_setTarget hcur hv).steps q m hcur hv).value

/-! The calls on a `RefRamp`. -/

/-- `N` of R159 is a conversion from milliseconds (R122). -/
theorem refRampLen_eq_ms2Smp (rampMs : F32) (q : Nat) (fs : F32) :
    refRampLen rampMs q fs = max 1 (floorSatU32 (ms2Smp q fs rampMs)) := rfl

/-- When its product stays finite, `N` depends on no free value. -/
theorem refRampLen_free (q q' : Nat) {fs rampMs : F32}
    (h : isFinite fs = true ∧ isFinite rampMs = true ∧ isFinite (fmul q' rampMs fs) = true) :
    refRampLen rampMs q fs = refRampLen rampMs q' fs := by
  rw [refRampLen_eq_ms2Smp, refRampLen_eq_ms2Smp, ms2Smp_free q q' h.1 h.2.1 h.2.2]

/-- R161 as the spec writes it: nothing left, the last step, or a step of the glide. -/
theorem refRampNext_eq (q : Nat) (r : RefRamp) :
    refRampNext q r =
      if (refRampPickUp q r).left = 0 then refRampPickUp q r else
        { refRampPickUp q r with
          left := (refRampPickUp q r).left - 1
          cur := if (refRampPickUp q r).left = 1 then (refRampPickUp q r).act
            else fadd (q + 2) (refRampPickUp q r).cur (refRampPickUp q r).step } := by
  have hpos : 0 < (refRampPickUp q r).left.toNat ↔ ¬ (refRampPickUp q r).left = 0 := by bv_omega
  have hlast : (refRampPickUp q r).left - 1 = 0 ↔ (refRampPickUp q r).left = 1 := by bv_omega
  simp only [refRampNext, hpos, hlast, ite_not]

/-- Settles O53: the calls are the model's own, `next` in the spec's order of tests, and the listed `N`
are those of the free values from 0 on, which evaluate. -/
theorem refRampCalls : Obligations.RefRampCalls := by
  intro p q r fs init v
  refine ⟨⟨rfl, rfl⟩, rfl, rfl, (refRampLen_free q 0 ?_).trans ?_, (refRampLen_free q 0 ?_).trans ?_,
    (refRampLen_free q 0 ?_).trans ?_, congrArg RampUnit.ref (refRampNext_eq q r)⟩
  all_goals decide +kernel

end Sys2Proof.Machine
end

section
/-! SUPPORT. What a step executes, and which commands the ready bits guard (60_exceptions.md R173,
R180, R187). -/

namespace Sys2Proof.Machine

/-- A step executes the command of the oldest waiting word, whatever its outcome (R180, R187). -/
theorem step_of_decode_cmd {s : State} {w : Cmd} {rest : List Cmd} {i : Instr}
    (hport : s.port = w :: rest) (hw : decode w = .cmd i) :
    step s = exec i { s with port := rest } := by
  simp only [step, takeCommand, hport, hw]

/-- Settles O7: the oldest word decides the step, an idle step holds the state, and `offer` appends. -/
theorem stepRunsTheDecodedCommand : Obligations.StepRunsTheDecodedCommand := by
  refine ⟨fun s w rest i => step_of_decode_cmd, fun s hport => ?_, fun s w => rfl⟩
  exact step_next.2 (.inl ⟨hport, rfl⟩)

/-- DBPREP and PREPARE are guarded by no ready bit (R173). -/
theorem exec_prepare_completes {i : Instr} (s : State)
    (h : opcodeOf i ∈ ([0x01, 0x10] : List (BitVec 8))) : ∃ t, exec i s = .next t := by
  cases i with
  | dbprep => exact ⟨_, execDbprep_next.2 rfl⟩
  | prepare => exact ⟨_, execPrepare_next.2 rfl⟩
  | _ => simp [opcodeOf] at h

/-- Settles O9, column by column of the table of R173: no guard, `needDb`, `needFn`. -/
theorem unreadyCommandsFault : Obligations.UnreadyCommandsFault := by
  intro s i
  refine ⟨exec_prepare_completes s, fun hop hdb => ?_, fun hop hi hnet => ?_⟩
  · obtain ⟨r, hr⟩ := exec_eq_needDb s hop
    rw [hr, needDb_unready hdb]
  · obtain ⟨r, hr⟩ := exec_eq_needFn s hi hop
    rw [hr, needFn_unready hnet]

end Sys2Proof.Machine
end
